-- ==== Sys2Proof/Word.lean ====
section
/-! DEFINITION. The widths of 00_scope R7 and the plain word arithmetic of R9 and R10. -/

namespace Sys2Proof

/-- A memory byte, a general register or a timer (R20, R27, R30). -/
abbrev Byte := BitVec 8

/-- An instruction word, and the width of `PC`, `I` and a stack slot (R23, R24, R25, R70). -/
abbrev Word := BitVec 16

/-- A 12-bit address field `nnn` (R71). -/
abbrev Addr := BitVec 12

/-- The number of a general register, or of a key: 0..15 (R20, R29). -/
abbrev RegIdx := Fin 16

/-- `VF`, the flag register: general register 15 (R21). -/
abbrev vf : RegIdx := 15

/-- `zext_16` of a byte (R9). -/
abbrev zextByte (b : Byte) : Word := b.setWidth 16

/-- `zext_16` of a 12-bit address (R73). -/
abbrev zextAddr (a : Addr) : Word := a.setWidth 16

end Sys2Proof
end

