-- ==== Sys2Proof/Config.lean ====
section
/-! DEFINITION. The parameters of 00_scope R7 that 92_eei_decisions leaves OPEN, and the one free value (R140). -/

namespace Sys2Proof

/-- `GK_OPCODES` (R79, D1): whether the nine instructions the source never names exist (UNVERIFIED, log entry 5). -/
inductive GkOpcodes where
  | enabled
  | disabled
  deriving DecidableEq, Repr

/-- `ODD_PC_POLICY` (R54, D4): what a Running step does at an odd `PC` (log entry 6). -/
inductive OddPcPolicy where
  | fault
  | allow
  deriving DecidableEq, Repr

/-- `KEY_WAIT_TRIGGER` (R185, D12): which keys an AwaitingKey step detects (log entry 8). -/
inductive KeyWaitTrigger where
  | edge
  | level
  deriving DecidableEq, Repr

/-- The configuration of 00_scope R7, fixed for a core; 10_state's opening sentence puts it into the state of a model,
so that a claim about every state holds for every value of the parameters (log entry 4). -/
structure Config where
  /-- `GK_OPCODES` (R79). -/
  gkOpcodes : GkOpcodes
  /-- `ODD_PC_POLICY` (R54). -/
  oddPcPolicy : OddPcPolicy
  /-- `FONT_BASE` (R196). -/
  fontBase : Addr
  /-- `FONT_DATA`: 80 bytes, five a digit (R196). -/
  fontData : Vector Byte 80
  /-- `KEY_WAIT_TRIGGER` (R185). -/
  keyWaitTrigger : KeyWaitTrigger
  /-- `LOADSTORE_INCREMENTS_I` (R194, R195). -/
  loadStoreIncrementsI : Bool
  /-- `SUB_VF_ON_EQUAL`: true for 1, false for 0 (R127). -/
  subVfOnEqual : Bool
  deriving DecidableEq, Repr

/-- The standard hexadecimal font, digits 0 to F in order (the table of R196; the spec's general knowledge: UNVERIFIED, log
entry 7). -/
def standardFont : Vector Byte 80 :=
  #v[0xF0, 0x90, 0x90, 0x90, 0xF0,  0x20, 0x60, 0x20, 0x20, 0x70,
     0xF0, 0x10, 0xF0, 0x80, 0xF0,  0xF0, 0x10, 0xF0, 0x10, 0xF0,
     0x90, 0x90, 0xF0, 0x10, 0x10,  0xF0, 0x80, 0xF0, 0x10, 0xF0,
     0xF0, 0x80, 0xF0, 0x90, 0xF0,  0xF0, 0x10, 0x20, 0x40, 0x40,
     0xF0, 0x90, 0xF0, 0x90, 0xF0,  0xF0, 0x90, 0xF0, 0x10, 0xF0,
     0xF0, 0x90, 0xF0, 0x90, 0x90,  0xE0, 0x90, 0xE0, 0x90, 0xE0,
     0xF0, 0x80, 0x80, 0x80, 0xF0,  0xE0, 0x90, 0x90, 0x90, 0xE0,
     0xF0, 0x80, 0xF0, 0x80, 0xF0,  0xF0, 0x80, 0xF0, 0x80, 0x80]

/-- The value this core takes for each parameter (the table of R7). -/
def Config.default : Config where
  gkOpcodes := .enabled
  oddPcPolicy := .fault
  fontBase := 0x000
  fontData := standardFont
  keyWaitTrigger := .edge
  loadStoreIncrementsI := false
  subVfOnEqual := false

/-- The font lies inside the reserved range 0x000-0x1FF (R55, R196). -/
def Config.fontFits (cfg : Config) : Bool := cfg.fontBase.toNat + 80 ≤ 0x200

/-- `random_byte()`: the byte of the n-th draw, under no law (R140, D19). A FREE VALUE (log entry 3): it has no body, so a
claim about a drawn byte holds whatever the byte is. -/
opaque Config.randomByte : Nat → Byte

end Sys2Proof
end

