-- ==== Sys2Proof/Syntax.lean ====
section
/-! DEFINITION. The instructions: one constructor per row of spec/opcode_table.json, in the table's order. -/

namespace Sys2Proof

/-- A decoded instruction (30_encoding R75, R76). `x`, `y` are register numbers, `nn` an 8-bit immediate, `nnn` a 12-bit
address, `n` a 4-bit row count (R71, R73). -/
inductive Instr where
  /-- 00E0 `CLS` (R160). -/
  | cls
  /-- 00EE `RET` (R153). -/
  | ret
  /-- 1NNN `JP addr` (R150). -/
  | jp (nnn : Addr)
  /-- 2NNN `CALL addr` (R152). -/
  | call (nnn : Addr)
  /-- 3XNN `SE Vx, byte` (R131). -/
  | seVxByte (x : RegIdx) (nn : Byte)
  /-- 4XNN `SNE Vx, byte` (R132). -/
  | sneVxByte (x : RegIdx) (nn : Byte)
  /-- 5XY0 `SE Vx, Vy` (R133). -/
  | seVxVy (x y : RegIdx)
  /-- 6XNN `LD Vx, byte` (R120). -/
  | ldVxByte (x : RegIdx) (nn : Byte)
  /-- 7XNN `ADD Vx, byte` (R125). -/
  | addVxByte (x : RegIdx) (nn : Byte)
  /-- 8XY0 `LD Vx, Vy` (R121). -/
  | ldVxVy (x y : RegIdx)
  /-- 8XY1 `OR Vx, Vy` (R122). -/
  | orVxVy (x y : RegIdx)
  /-- 8XY2 `AND Vx, Vy` (R123). -/
  | andVxVy (x y : RegIdx)
  /-- 8XY3 `XOR Vx, Vy` (R124). -/
  | xorVxVy (x y : RegIdx)
  /-- 8XY4 `ADD Vx, Vy` (R126). -/
  | addVxVy (x y : RegIdx)
  /-- 8XY5 `SUB Vx, Vy` (R127). -/
  | sub (x y : RegIdx)
  /-- 8XY6 `SHR Vx` (R129). `y` is the ignored field of R82, kept so that no bit of the word is lost (DESIGN CHOICE, log
  entry 15). -/
  | shr (x y : RegIdx)
  /-- 8XY7 `SUBN Vx, Vy` (R128). -/
  | subn (x y : RegIdx)
  /-- 8XYE `SHL Vx` (R130). `y` is the ignored field of R82 (DESIGN CHOICE, log entry 15). -/
  | shl (x y : RegIdx)
  /-- 9XY0 `SNE Vx, Vy` (R134). -/
  | sneVxVy (x y : RegIdx)
  /-- ANNN `LD I, addr` (R190), a GK opcode. -/
  | ldI (nnn : Addr)
  /-- BNNN `JP V0, addr` (R151). -/
  | jpV0 (nnn : Addr)
  /-- CXNN `RND Vx, byte` (R135). -/
  | rnd (x : RegIdx) (nn : Byte)
  /-- DXYN `DRW Vx, Vy, nibble` (R161). -/
  | drw (x y : RegIdx) (n : BitVec 4)
  /-- EX9E `SKP Vx` (R181). -/
  | skp (x : RegIdx)
  /-- EXA1 `SKNP Vx` (R182). -/
  | sknp (x : RegIdx)
  /-- FX07 `LD Vx, DT` (R173), a GK opcode. -/
  | ldVxDt (x : RegIdx)
  /-- FX0A `LD Vx, K` (R183). -/
  | ldVxK (x : RegIdx)
  /-- FX15 `LD DT, Vx` (R174), a GK opcode. -/
  | ldDtVx (x : RegIdx)
  /-- FX18 `LD ST, Vx` (R175), a GK opcode. -/
  | ldStVx (x : RegIdx)
  /-- FX1E `ADD I, Vx` (R191), a GK opcode. -/
  | addIVx (x : RegIdx)
  /-- FX29 `LD F, Vx` (R192), a GK opcode. -/
  | ldFVx (x : RegIdx)
  /-- FX33 `LD B, Vx` (R193), a GK opcode. -/
  | ldBVx (x : RegIdx)
  /-- FX55 `LD [I], Vx` (R194), a GK opcode. -/
  | ldMemVx (x : RegIdx)
  /-- FX65 `LD Vx, [I]` (R195), a GK opcode. -/
  | ldVxMem (x : RegIdx)
  deriving DecidableEq, Repr

end Sys2Proof
end

