-- ==== Sys2Proof/WellFormed.lean ====
section
/-! DEFINITION. Which instructions a core with a given `GK_OPCODES` has (30_encoding R79). Operand ranges need no check:
the types of `Instr`'s fields hold exactly the values of R71. -/

namespace Sys2Proof

/-- The nine instructions the source never names (R79). -/
def Instr.isGk : Instr → Bool
  | .ldI _ | .ldVxDt _ | .ldDtVx _ | .ldStVx _ | .addIVx _ | .ldFVx _ | .ldBVx _ | .ldMemVx _ | .ldVxMem _ => true
  | .cls | .ret | .jp _ | .call _ | .seVxByte _ _ | .sneVxByte _ _ | .seVxVy _ _ | .ldVxByte _ _ | .addVxByte _ _
  | .ldVxVy _ _ | .orVxVy _ _ | .andVxVy _ _ | .xorVxVy _ _ | .addVxVy _ _ | .sub _ _ | .shr _ _ | .subn _ _ | .shl _ _
  | .sneVxVy _ _ | .jpV0 _ | .rnd _ _ | .drw _ _ _ | .skp _ | .sknp _ | .ldVxK _ => false

/-- The instruction exists on a core whose `GK_OPCODES` is `gk` (R79). -/
def Instr.wellFormed (gk : GkOpcodes) (i : Instr) : Bool :=
  match gk with
  | .enabled => true
  | .disabled => !i.isGk

end Sys2Proof
end

