-- ==== Sys2Proof/Decode.lean ====
section
/-! DEFINITION. Decoding a word (30_encoding R70 to R82) and, after it, encoding an instruction (R72, R76). Every pattern but
6XNN, 7XNN and 8XY4 is the spec's general knowledge (D2; UNVERIFIED, log entry 14). -/

namespace Sys2Proof

/-- The big-endian word of two bytes, the byte at the lower address first (20_memory R52). -/
def wordOfBytes (hi lo : Byte) : Word := hi ++ lo

/-- Bits 15..8 of a word: the byte stored at the lower address (R52). -/
def highByte (w : Word) : Byte := w.extractLsb' 8 8

/-- Bits 7..0 of a word: the byte stored at the higher address (R52). -/
def lowByte (w : Word) : Byte := w.extractLsb' 0 8

/-- `op = w[15:12]` (R71). -/
def opField (w : Word) : BitVec 4 := w.extractLsb' 12 4

/-- `x = w[11:8]` as a register number (R71, R74). -/
def xField (w : Word) : RegIdx := ⟨(w.extractLsb' 8 4).toNat, (w.extractLsb' 8 4).isLt⟩

/-- `y = w[7:4]` as a register number (R71, R74). -/
def yField (w : Word) : RegIdx := ⟨(w.extractLsb' 4 4).toNat, (w.extractLsb' 4 4).isLt⟩

/-- `n = w[3:0]` (R71). -/
def nField (w : Word) : BitVec 4 := w.extractLsb' 0 4

/-- `nn = w[7:0]` (R71). -/
def nnField (w : Word) : Byte := w.extractLsb' 0 8

/-- `nnn = w[11:0]` (R71). -/
def nnnField (w : Word) : Addr := w.extractLsb' 0 12

/-- Why no instruction was read: the items of R80, by dispatch level. -/
inductive DecodeReject where
  /-- fewer than the two bytes of an instruction (R70) -/
  | truncated
  /-- op 0x0, neither 00E0 nor 00EE (R77) -/
  | zeroGroup
  /-- op 0x5 with `n` not 0 (R78) -/
  | fiveGroup
  /-- op 0x8 with an `n` that selects nothing (R78) -/
  | eightGroup
  /-- op 0x9 with `n` not 0 (R78) -/
  | nineGroup
  /-- op 0xE with an `nn` that selects nothing (R78) -/
  | keyGroup
  /-- op 0xF with an `nn` that selects nothing (R78) -/
  | miscGroup
  /-- a GK opcode on a core without them (R79) -/
  | gkDisabled
  deriving DecidableEq, Repr

/-- A GK opcode decodes only when `GK_OPCODES = ENABLED` (R79). -/
def gkOnly (gk : GkOpcodes) (i : Instr) : Except DecodeReject Instr :=
  match gk with
  | .enabled => .ok i
  | .disabled => .error .gkDisabled

/-- Op 0x0, selected by the whole word (R77). -/
def decodeZero (w : Word) : Except DecodeReject Instr :=
  if w = 0x00E0#16 then .ok .cls else if w = 0x00EE#16 then .ok .ret else .error .zeroGroup

/-- Op 0x8, selected by `n` (R78). -/
def decodeEight (w : Word) : Except DecodeReject Instr :=
  let x := xField w
  let y := yField w
  match (nField w).toNat with
  | 0x0 => .ok (.ldVxVy x y)
  | 0x1 => .ok (.orVxVy x y)
  | 0x2 => .ok (.andVxVy x y)
  | 0x3 => .ok (.xorVxVy x y)
  | 0x4 => .ok (.addVxVy x y)
  | 0x5 => .ok (.sub x y)
  | 0x6 => .ok (.shr x y)
  | 0x7 => .ok (.subn x y)
  | 0xE => .ok (.shl x y)
  | _ => .error .eightGroup

/-- Op 0xE, selected by `nn` (R78). -/
def decodeKey (w : Word) : Except DecodeReject Instr :=
  let x := xField w
  if nnField w = 0x9E#8 then .ok (.skp x)
  else if nnField w = 0xA1#8 then .ok (.sknp x)
  else .error .keyGroup

/-- Op 0xF, selected by `nn` (R78); all but FX0A are GK opcodes (R79). -/
def decodeMisc (gk : GkOpcodes) (w : Word) : Except DecodeReject Instr :=
  let x := xField w
  if nnField w = 0x07#8 then gkOnly gk (.ldVxDt x)
  else if nnField w = 0x0A#8 then .ok (.ldVxK x)
  else if nnField w = 0x15#8 then gkOnly gk (.ldDtVx x)
  else if nnField w = 0x18#8 then gkOnly gk (.ldStVx x)
  else if nnField w = 0x1E#8 then gkOnly gk (.addIVx x)
  else if nnField w = 0x29#8 then gkOnly gk (.ldFVx x)
  else if nnField w = 0x33#8 then gkOnly gk (.ldBVx x)
  else if nnField w = 0x55#8 then gkOnly gk (.ldMemVx x)
  else if nnField w = 0x65#8 then gkOnly gk (.ldVxMem x)
  else .error .miscGroup

/-- The decoder: high nibble first, then the secondary selector (R75, R76). It reads the word and `GK_OPCODES` alone (R104). -/
def decode (gk : GkOpcodes) (w : Word) : Except DecodeReject Instr :=
  match (opField w).toNat with
  | 0x0 => decodeZero w
  | 0x1 => .ok (.jp (nnnField w))
  | 0x2 => .ok (.call (nnnField w))
  | 0x3 => .ok (.seVxByte (xField w) (nnField w))
  | 0x4 => .ok (.sneVxByte (xField w) (nnField w))
  | 0x5 => if nField w = 0 then .ok (.seVxVy (xField w) (yField w)) else .error .fiveGroup
  | 0x6 => .ok (.ldVxByte (xField w) (nnField w))
  | 0x7 => .ok (.addVxByte (xField w) (nnField w))
  | 0x8 => decodeEight w
  | 0x9 => if nField w = 0 then .ok (.sneVxVy (xField w) (yField w)) else .error .nineGroup
  | 0xA => gkOnly gk (.ldI (nnnField w))
  | 0xB => .ok (.jpV0 (nnnField w))
  | 0xC => .ok (.rnd (xField w) (nnField w))
  | 0xD => .ok (.drw (xField w) (yField w) (nField w))
  | 0xE => decodeKey w
  | _ => decodeMisc gk w  -- 0xF, the one value left of a nibble

/-- Reading one instruction from the front of a byte sequence: two bytes, big-endian (R70, R52). -/
def decodeBytes (gk : GkOpcodes) : List Byte → Except DecodeReject (Instr × List Byte)
  | hi :: lo :: rest => (decode gk (wordOfBytes hi lo)).map (fun i => (i, rest))
  | [] | [_] => .error .truncated

/-! ## Encoding, format by format (R72) -/

/-- The four bits of a register number (R71). -/
def regBits (r : RegIdx) : BitVec 4 := BitVec.ofNat 4 r.val

/-- Format `NNN`: op and a 12-bit address (R72). -/
def wordNNN (op : BitVec 4) (nnn : Addr) : Word := op ++ nnn

/-- Formats `XNN` and `XFF`: op, a register number and eight bits (R72). -/
def wordXNN (op : BitVec 4) (x : RegIdx) (nn : Byte) : Word := op ++ (regBits x ++ nn)

/-- Formats `XYN` and `XYF`: op, two register numbers and four bits (R72). -/
def wordXYN (op : BitVec 4) (x y : RegIdx) (n : BitVec 4) : Word := op ++ (regBits x ++ (regBits y ++ n))

/-- The word of an instruction (R76). -/
def encode : Instr → Word
  | .cls => 0x00E0#16
  | .ret => 0x00EE#16
  | .jp nnn => wordNNN 0x1#4 nnn
  | .call nnn => wordNNN 0x2#4 nnn
  | .seVxByte x nn => wordXNN 0x3#4 x nn
  | .sneVxByte x nn => wordXNN 0x4#4 x nn
  | .seVxVy x y => wordXYN 0x5#4 x y 0x0#4
  | .ldVxByte x nn => wordXNN 0x6#4 x nn
  | .addVxByte x nn => wordXNN 0x7#4 x nn
  | .ldVxVy x y => wordXYN 0x8#4 x y 0x0#4
  | .orVxVy x y => wordXYN 0x8#4 x y 0x1#4
  | .andVxVy x y => wordXYN 0x8#4 x y 0x2#4
  | .xorVxVy x y => wordXYN 0x8#4 x y 0x3#4
  | .addVxVy x y => wordXYN 0x8#4 x y 0x4#4
  | .sub x y => wordXYN 0x8#4 x y 0x5#4
  | .shr x y => wordXYN 0x8#4 x y 0x6#4
  | .subn x y => wordXYN 0x8#4 x y 0x7#4
  | .shl x y => wordXYN 0x8#4 x y 0xE#4
  | .sneVxVy x y => wordXYN 0x9#4 x y 0x0#4
  | .ldI nnn => wordNNN 0xA#4 nnn
  | .jpV0 nnn => wordNNN 0xB#4 nnn
  | .rnd x nn => wordXNN 0xC#4 x nn
  | .drw x y n => wordXYN 0xD#4 x y n
  | .skp x => wordXNN 0xE#4 x 0x9E#8
  | .sknp x => wordXNN 0xE#4 x 0xA1#8
  | .ldVxDt x => wordXNN 0xF#4 x 0x07#8
  | .ldVxK x => wordXNN 0xF#4 x 0x0A#8
  | .ldDtVx x => wordXNN 0xF#4 x 0x15#8
  | .ldStVx x => wordXNN 0xF#4 x 0x18#8
  | .addIVx x => wordXNN 0xF#4 x 0x1E#8
  | .ldFVx x => wordXNN 0xF#4 x 0x29#8
  | .ldBVx x => wordXNN 0xF#4 x 0x33#8
  | .ldMemVx x => wordXNN 0xF#4 x 0x55#8
  | .ldVxMem x => wordXNN 0xF#4 x 0x65#8

/-- The bytes of an instruction as memory holds them, lower address first (R52). -/
def encodeBytes (i : Instr) : List Byte := [highByte (encode i), lowByte (encode i)]

/-- The word of a row of spec/opcode_table.json: the low `nbits` bits of `w`, every bit above them 0. -/
def tableWord (nbits w : Nat) : Word := BitVec.ofNat 16 (w % 2 ^ nbits)

/-- The instruction the decoder reads from the bytes of that word, on a core with every row of the table. -/
def decodeTableWord (nbits w : Nat) : Option Instr :=
  match decodeBytes .enabled [highByte (tableWord nbits w), lowByte (tableWord nbits w)] with
  | .ok (i, _) => some i
  | .error _ => none

end Sys2Proof
end

