-- ==== Sys2Proof/Machine/State.lean ====
section
/-! DEFINITION. The state of the core (10_state R20 to R32) as plain data, and its reset value (R35). -/

namespace Sys2Proof.Machine

/-- The five fault kinds of a running core (60_exceptions R200). A fault's ENTRY is described by the spec (R105, R205) and
leaves a state whose `status` is `Faulted`, so a step that faults answers that NEXT state (`State.raise`), with the kind in
the record; no step of this model answers `Host.Outcome.fault` (DESIGN CHOICE, log entry 1: safe). -/
inductive Fault where
  /-- Raised by the decode of a word that matches no instruction (R201); safe: the spec's own fault. -/
  | unrecognizedOpcode
  /-- Raised by CALL when `SP = 16` (R202); safe: the spec's own fault. -/
  | stackOverflow
  /-- Raised by RET when `SP = 0` (R203); safe: the spec's own fault. -/
  | stackUnderflow
  /-- Raised by SKP and SKNP when `Vx` names no key (R204); safe: the model stops where a build might go on. -/
  | outOfBoundsAccess
  /-- Raised by a Running step at an odd `PC` under `ODD_PC_POLICY = FAULT` (R206); safe: the model stops where a build
  might go on. -/
  | misalignedPC
  deriving DecidableEq, Repr

/-- Why a step has no meaning. No admitted encoding is refused (00_scope R11). -/
inductive Refusal where
  /-- Raised by an arm of `exec` whose instruction has no meaning yet; there is none. Safe: the model stops. -/
  | notModelled (mnemonic : String)
  deriving DecidableEq, Repr

/-- Why a load produces no core (60_exceptions R207, 70 R222). It is an error of `load`, not of a step. -/
inductive LoadError where
  /-- `RomTooLarge`: more than 3584 bytes (R222); safe: no core exists after it. -/
  | romTooLarge
  deriving DecidableEq, Repr

/-- The stack pointer: 0 is empty, 16 is full, and no other value exists (R26). -/
abbrev StackPtr := Fin 17

/-- The Key State, or a remembered one (R29, R31). -/
abbrev Keys := Vector Bool 16

/-- `Disp[y][x]`: 32 rows of 64 one-bit cells (R28). -/
abbrev Display := Vector (Vector Bool 64) 32

/-- Memory as the list of its bytes that differ from reset, addresses strictly rising (R30; canonical form `Memory.wf`). -/
abbrev Memory := List Host.Cell

/-- The fault record `r = (kind, word, pc, sp)` (R31, R205). -/
structure FaultRecord where
  kind : Fault
  word : Word
  pc : Word
  sp : StackPtr
  deriving DecidableEq, Repr

/-- The run state latch (R31). -/
inductive Status where
  /-- normal dispatch -/
  | running
  /-- waiting for a key for register `x`; `snap` is the Key State last seen by the core -/
  | awaitingKey (x : RegIdx) (snap : Keys)
  /-- a fault was raised; terminal -/
  | faulted (r : FaultRecord)
  deriving DecidableEq, Repr

/-- The whole state of the core, "one owned machine-state value" (10_state). -/
structure State where
  /-- `V[0..15]` (R20); `V[15]` is `VF` (R21). -/
  v : Vector Byte 16
  /-- `I` (R23). -/
  index : Word
  /-- `PC` (R24). -/
  pc : Word
  /-- `SP` (R26). -/
  sp : StackPtr
  /-- `stack[0..15]` (R25). -/
  stack : Vector Word 16
  /-- `DT`, the DelayTimer (R27). -/
  dt : Byte
  /-- `ST`, the SoundTimer (R27). -/
  st : Byte
  /-- `Disp` (R28). -/
  disp : Display
  /-- `Keys[0..15]`, written only by the host (R29). -/
  keys : Keys
  /-- `Mem` (R30). -/
  mem : Memory
  /-- `status` (R31). -/
  status : Status
  /-- The configuration (10_state's opening sentence; 00_scope R7). Nothing changes it. -/
  cfg : Config
  /-- The render-needed output of the last `step()` (R32, R108): an output latch that nothing in the core reads
  (DESIGN CHOICE, log entry 2). -/
  render : Bool
  /-- THE MODEL'S OWN: how many free bytes RND has drawn (R140; log entry 3). -/
  draws : Nat
  deriving DecidableEq, Repr

/-- What a meaning and a step answer. -/
abbrev Result := Host.Outcome State Fault Refusal

/-- The state after construction and the load of an empty ROM (R35, R220 to R223), for a configuration. Memory lists nothing:
an unlisted byte reads as the font or 0 (log entry 12). `draws` starts at 0 (DESIGN CHOICE, log entry 3). -/
def State.resetWith (cfg : Config) : State where
  v := Vector.replicate 16 0
  index := 0
  pc := 0x200
  sp := 0
  stack := Vector.replicate 16 0
  dt := 0
  st := 0
  disp := Vector.replicate 32 (Vector.replicate 64 false)
  keys := Vector.replicate 16 false
  mem := []
  status := .running
  cfg := cfg
  render := false
  draws := 0

/-- The machine right after reset, with the parameters at the values of R7. -/
def State.reset : State := State.resetWith Config.default

end Sys2Proof.Machine
end

