-- ==== Sys2Proof/Machine/Ops.lean ====
section
/-! DEFINITION. The named operations over registers, memory, the stack, the keys and the program counter (00_scope R10), and
taking a fault (60_exceptions R205). There is no return from a fault (R209): `Faulted` is terminal, so none is defined. -/

namespace Sys2Proof.Machine

/-! ## Memory (20_memory) -/

/-- `mask12`: the address an access uses (R51). -/
def mask12 (a : Nat) : Nat := a % 4096

/-- What a byte of memory holds after construction, before any ROM byte or write: the font, else 0 (R35, R220, R221). It is
what an address that `Memory` does not list reads as (log entry 12). -/
def backgroundByte (cfg : Config) (a : Nat) : Byte :=
  if h : cfg.fontBase.toNat ≤ a ∧ a < cfg.fontBase.toNat + 80 then cfg.fontData[a - cfg.fontBase.toNat] else 0

/-- The byte at an address below 4096. -/
def Memory.read (bg : Nat → Byte) : Memory → Nat → Byte
  | [], a => bg a
  | (b, v) :: m, a => if a = b then v else Memory.read bg m a

/-- One byte stored, keeping the canonical form: a byte equal to the background is not listed. -/
def Memory.write (bg : Nat → Byte) : Memory → Nat → Byte → Memory
  | [], a, v => if v = bg a then [] else [(a, v)]
  | (b, w) :: m, a, v =>
    if a < b then (if v = bg a then (b, w) :: m else (a, v) :: (b, w) :: m)
    else if a = b then (if v = bg a then m else (a, v) :: m)
    else (b, w) :: Memory.write bg m a v

/-- Addresses strictly rising from `lo` on and below 4096, no byte equal to the background. -/
def Memory.wfFrom (bg : Nat → Byte) : Nat → Memory → Bool
  | _, [] => true
  | lo, (a, v) :: m => decide (lo ≤ a) && decide (a < 4096) && decide (v ≠ bg a) && Memory.wfFrom bg (a + 1) m

/-- The canonical form of memory. -/
def Memory.wf (cfg : Config) (m : Memory) : Bool := Memory.wfFrom (backgroundByte cfg) 0 m

/-- Bytes stored at `a`, `a + 1`, …, each address masked on its own (R51, R53, R59). -/
def Memory.writeBytes (bg : Nat → Byte) : Memory → Nat → List Byte → Memory
  | m, _, [] => m
  | m, a, b :: bs => Memory.writeBytes bg (Memory.write bg m (mask12 a) b) (a + 1) bs

/-- `MemRead(a, 1)` (R10, R51). -/
def State.memRead (s : State) (a : Nat) : Byte := Memory.read (backgroundByte s.cfg) s.mem (mask12 a)

/-- `MemWrite(a, 1, b)` for each byte of a list, at ascending addresses from `a` (R10, R51, R59). -/
def State.storeBytes (s : State) (a : Nat) (bs : List Byte) : State :=
  { s with mem := Memory.writeBytes (backgroundByte s.cfg) s.mem a bs }

/-- The word at an address, two masked byte reads, big-endian (R52, R102). -/
def State.wordAt (s : State) (a : Nat) : Word := wordOfBytes (s.memRead a) (s.memRead (a + 1))

/-- The word a Running step fetches (R102). -/
def State.fetchWord (s : State) : Word := s.wordAt s.pc.toNat

/-! ## Registers -/

/-- `V[r]` (R10). -/
def State.reg (s : State) (r : RegIdx) : Byte := s.v[r.val]

/-- `V[r] <- b` (R10). -/
def State.setReg (s : State) (r : RegIdx) (b : Byte) : State := { s with v := s.v.set r.val b }

/-- Result to `Vx`, then flag to `VF`: the flag is written last, so for x = 0xF it is what stays (R137, D10). -/
def State.setRegFlag (s : State) (x : RegIdx) (res flag : Byte) : State := (s.setReg x res).setReg vf flag

/-- `I <- w` (R10, R23). -/
def State.setIndex (s : State) (w : Word) : State := { s with index := w }

/-- `PC <- w` (R10, R24). -/
def State.setPc (s : State) (w : Word) : State := { s with pc := w }

/-- `DT <- b` (R10). -/
def State.setDelay (s : State) (b : Byte) : State := { s with dt := b }

/-- `ST <- b` (R10). -/
def State.setSound (s : State) (b : Byte) : State := { s with st := b }

/-- `status <- x` (R31). -/
def State.setStatus (s : State) (x : Status) : State := { s with status := x }

/-- `render <- b`: the step's render-needed output (R108). -/
def State.setRender (s : State) (b : Bool) : State := { s with render := b }

/-- The display replaced (R165: only CLS and DRW do this). -/
def State.setDisp (s : State) (d : Display) : State := { s with disp := d }

/-- One free byte taken: the next draw is another one (R140, log entry 3). -/
def State.drawn (s : State) : State := { s with draws := s.draws + 1 }

/-- `draw8()` (R140): the free byte of this execution. -/
def State.draw8 (s : State) : Byte := Config.randomByte s.draws

/-- `V[r] <- MemRead(I + r, 1)` for each register of a list, in order (R195). -/
def State.loadRegs (s : State) : List RegIdx → State
  | [] => s
  | r :: rs => (s.setReg r (s.memRead (s.index.toNat + r.val))).loadRegs rs

/-! ## Keys and the stack -/

/-- `Keys[k]` (R10, R29). -/
def State.key (s : State) (k : RegIdx) : Bool := s.keys[k.val]

/-- `stack[j]` (R10, R25). -/
def State.slot (s : State) (j : Fin 16) : Word := s.stack[j.val]

/-- The push of R152 on a stack that is not full: the slot at the old `SP`, then `SP + 1` (R154). -/
def State.push (s : State) (w : Word) (h : s.sp.val < 16) : State :=
  { s with stack := s.stack.set s.sp.val w, sp := ⟨s.sp.val + 1, by omega⟩ }

/-- The pop of R153 on a stack that is not empty: `SP - 1`, the slot there is the answer and keeps its value (R25, R154). -/
def State.pop (s : State) (h : 0 < s.sp.val) : Word × State :=
  (s.stack[s.sp.val - 1], { s with sp := ⟨s.sp.val - 1, by omega⟩ })

/-! ## The program counter -/

/-- The start of an instruction: `PC <- trunc_16(pc0 + 2)` (R103) and `render <- false` (R108). Every meaning begins with it;
the state it starts from is the `S0` of R105. -/
def State.advance (s : State) : State := { s with pc := s.pc + 2, render := false }

/-- `if c : PC <- trunc_16(PC + 2)` (R139). -/
def State.skipIf (s : State) (c : Bool) : State := if c then s.setPc (s.pc + 2) else s

/-! ## Faults -/

/-- TAKING A FAULT (R105, R205): `s0` is the state at the start of the step, every write of the step is discarded, and
`status` becomes `Faulted` with the kind, the fetched word, `pc0` and `SP`; the step's `render` output is false (R108). It is
the one way any fault is taken. -/
def State.raise (s0 : State) (kind : Fault) : State :=
  { s0 with
    status := .faulted { kind := kind, word := s0.fetchWord, pc := s0.pc, sp := s0.sp }
    render := false }

end Sys2Proof.Machine
end

