-- ==== Sys2Proof/Machine/Flags.lean ====
section
/-! DEFINITION. What the arithmetic and shift instructions write to `VF` (41_alu_skip R126 to R130, R136). -/

namespace Sys2Proof.Machine

/-- A Boolean as a register holds it: 1 or 0 (00_scope R9). -/
def flagByte (f : Bool) : Byte := if f then 1 else 0

/-- The carry of ADD: "the 9-bit sum exceeds 0xFF" (R126). -/
def addCarry (a b : Byte) : Bool := decide (a.toNat + b.toNat > 0xFF)

/-- The flag of `a - b`: `a > b`, and `SUB_VF_ON_EQUAL` when they are equal (R127, R128; 90_conflicts C10). -/
def subFlag (cfg : Config) (a b : Byte) : Bool :=
  if a.toNat > b.toNat then true else if a = b then cfg.subVfOnEqual else false

/-- Bit 0, shifted out by SHR (R129). -/
def shrFlag (a : Byte) : Bool := a.getLsbD 0

/-- Bit 7, shifted out by SHL (R130). -/
def shlFlag (a : Byte) : Bool := a.getLsbD 7

end Sys2Proof.Machine
end

