-- ==== Sys2Proof/Machine/Alu.lean ====
section
/-! DEFINITION. Register moves, logic, addition, subtraction, shifts and random (41_alu_skip R120 to R130, R135). Operands are
read from `s`, the state before any write (R138). -/

namespace Sys2Proof.Machine

/-- `V[x] <- nn` (R120). -/
def execLdVxByte (x : RegIdx) (nn : Byte) (s : State) : Result := .next (s.advance.setReg x nn)

/-- `V[x] <- V[y]` (R121). -/
def execLdVxVy (x y : RegIdx) (s : State) : Result := .next (s.advance.setReg x (s.reg y))

/-- `V[x] <- V[x] | V[y]`, no flag (R122). -/
def execOrVxVy (x y : RegIdx) (s : State) : Result := .next (s.advance.setReg x (s.reg x ||| s.reg y))

/-- `V[x] <- V[x] & V[y]`, no flag (R123). -/
def execAndVxVy (x y : RegIdx) (s : State) : Result := .next (s.advance.setReg x (s.reg x &&& s.reg y))

/-- `V[x] <- V[x] ^ V[y]`, no flag (R124). -/
def execXorVxVy (x y : RegIdx) (s : State) : Result := .next (s.advance.setReg x (s.reg x ^^^ s.reg y))

/-- `V[x] <- trunc_8(V[x] + nn)`, no flag (R125). -/
def execAddVxByte (x : RegIdx) (nn : Byte) (s : State) : Result := .next (s.advance.setReg x (s.reg x + nn))

/-- `V[x] <- trunc_8(V[x] + V[y])`, then VF = carry (R126). -/
def execAddVxVy (x y : RegIdx) (s : State) : Result :=
  .next (s.advance.setRegFlag x (s.reg x + s.reg y) (flagByte (addCarry (s.reg x) (s.reg y))))

/-- `V[x] <- trunc_8(V[x] + 256 - V[y])`, then VF (R127). -/
def execSub (x y : RegIdx) (s : State) : Result :=
  .next (s.advance.setRegFlag x (s.reg x - s.reg y) (flagByte (subFlag s.cfg (s.reg x) (s.reg y))))

/-- `V[x] <- trunc_8(V[y] + 256 - V[x])`, then VF (R128). -/
def execSubn (x y : RegIdx) (s : State) : Result :=
  .next (s.advance.setRegFlag x (s.reg y - s.reg x) (flagByte (subFlag s.cfg (s.reg y) (s.reg x))))

/-- `V[x] <- V[x] >> 1`, then VF = the old bit 0; the y field is ignored (R129, R82). -/
def execShr (x _y : RegIdx) (s : State) : Result :=
  .next (s.advance.setRegFlag x (s.reg x >>> 1) (flagByte (shrFlag (s.reg x))))

/-- `V[x] <- trunc_8(V[x] << 1)`, then VF = the old bit 7; the y field is ignored (R130, R82). -/
def execShl (x _y : RegIdx) (s : State) : Result :=
  .next (s.advance.setRegFlag x (s.reg x <<< 1) (flagByte (shlFlag (s.reg x))))

/-- `r <- draw8(); V[x] <- r & nn` (R135): the byte drawn is free (R140, log entry 3). -/
def execRnd (x : RegIdx) (nn : Byte) (s : State) : Result := .next (s.advance.drawn.setReg x (s.draw8 &&& nn))

end Sys2Proof.Machine
end

