-- ==== Sys2Proof/Machine/Operands.lean ====
section
/-! DEFINITION. The operand forms: jump targets, the font address, decimal digits, register ranges (30_encoding R73,
42_control_flow, 46_index_memory). -/

namespace Sys2Proof.Machine

/-- `zext_16(V[0]) + zext_16(nnn)`; no truncation can happen (R151). -/
def jumpV0Target (s : State) (nnn : Addr) : Word := zextByte (s.reg 0) + zextAddr nnn

/-- `FONT_BASE + 5 * (b & 0xF)` (R192). -/
def fontAddress (cfg : Config) (b : Byte) : Word := zextAddr cfg.fontBase + 5 * zextByte (b &&& 0xF)

/-- The decimal hundreds, tens and units of a byte (R193). -/
def decimalDigits (b : Byte) : List Byte :=
  [BitVec.ofNat 8 (b.toNat / 100), BitVec.ofNat 8 (b.toNat / 10 % 10), BitVec.ofNat 8 (b.toNat % 10)]

/-- The register numbers 0, …, x (R194, R195). -/
def regsThrough (x : RegIdx) : List RegIdx := (List.finRange 16).take (x.val + 1)

/-- `if LOADSTORE_INCREMENTS_I : I <- trunc_16(I + x + 1)` (R194, R195). -/
def State.bumpIndex (s : State) (x : RegIdx) : State :=
  if s.cfg.loadStoreIncrementsI then s.setIndex (s.index + BitVec.ofNat 16 (x.val + 1)) else s

/-- The key a register value names, if any: the Key State has 16 entries (R181). -/
def keyNumber (b : Byte) : Option RegIdx :=
  if h : b.toNat < 16 then some ⟨b.toNat, h⟩ else none

end Sys2Proof.Machine
end

