-- ==== Sys2Proof/Machine/ControlFlow.lean ====
section
/-! DEFINITION. Jumps, call and return (42_control_flow R150 to R153). -/

namespace Sys2Proof.Machine

/-- `PC <- zext_16(nnn)` (R150). -/
def execJp (nnn : Addr) (s : State) : Result := .next (s.advance.setPc (zextAddr nnn))

/-- `PC <- zext_16(V[0]) + zext_16(nnn)`, kept unmasked (R151). -/
def execJpV0 (nnn : Addr) (s : State) : Result := .next (s.advance.setPc (jumpV0Target s nnn))

/-- `if SP == 16 : raise StackOverflow; stack[SP] <- PC; SP <- SP + 1; PC <- zext_16(nnn)` (R152, R110). -/
def execCall (nnn : Addr) (s : State) : Result :=
  if h : s.advance.sp.val < 16 then .next ((s.advance.push s.advance.pc h).setPc (zextAddr nnn))
  else .next (s.raise .stackOverflow)

/-- `if SP == 0 : raise StackUnderflow; SP <- SP - 1; PC <- stack[SP]` (R153). -/
def execRet (s : State) : Result :=
  if h : 0 < s.advance.sp.val then .next ((s.advance.pop h).2.setPc (s.advance.pop h).1)
  else .next (s.raise .stackUnderflow)

end Sys2Proof.Machine
end

