-- ==== Sys2Proof/Machine/Draw.lean ====
section
/-! DEFINITION. The display instructions: clear, and sprite draw with clipping, XOR and collision (43_display R160 to R164). -/

namespace Sys2Proof.Machine

/-- The cell at column `px`, row `py`; false outside the display (R28). -/
def Display.cell (d : Display) (px py : Nat) : Bool :=
  if h : px < 64 ∧ py < 32 then d[py][px] else false

/-- Every cell 0 (R160). -/
def clearDisplay : Display := Vector.replicate 32 (Vector.replicate 64 false)

/-- One set sprite bit at `(px, py)`: dropped outside the display (R163); else a collision if the cell is set (R162), and
the XOR writeback. The pair is the display and the collision so far. -/
def drawPixel (dc : Display × Bool) (px py : Nat) : Display × Bool :=
  if h : px < 64 ∧ py < 32 then (dc.1.set py (dc.1[py].set px (!dc.1[py][px])), dc.2 || dc.1[py][px]) else dc

/-- The eight pixels of a sprite row, bit 7 leftmost (R161, R164). -/
def drawRow (b : Byte) (vx py : Nat) (dc : Display × Bool) : Display × Bool :=
  (List.range 8).foldl (fun dc k => if b.getLsbD (7 - k) then drawPixel dc (vx + k) py else dc) dc

/-- The `n` rows of the sprite at `I`, each row's address masked on its own (R161). -/
def drawSprite (s : State) (vx vy n : Nat) (dc : Display × Bool) : Display × Bool :=
  (List.range n).foldl (fun dc r => drawRow (s.memRead (s.index.toNat + r)) vx (vy + r) dc) dc

/-- `Disp <- 0; render <- true` (R160). -/
def execCls (s : State) : Result := .next ((s.advance.setDisp clearDisplay).setRender true)

/-- The block tagged R161: coordinates first, the draw, `VF` last, `render <- true`. -/
def execDrw (x y : RegIdx) (n : BitVec 4) (s : State) : Result :=
  let drawn := drawSprite s (s.reg x).toNat (s.reg y).toNat n.toNat (s.disp, false)
  .next (((s.advance.setDisp drawn.1).setReg vf (flagByte drawn.2)).setRender true)

end Sys2Proof.Machine
end

