-- ==== Sys2Proof/Machine/IndexMemory.lean ====
section
/-! DEFINITION. The index register and the memory transfers (46_index_memory R190 to R195); all are GK opcodes. -/

namespace Sys2Proof.Machine

/-- `I <- zext_16(nnn)` (R190). -/
def execLdI (nnn : Addr) (s : State) : Result := .next (s.advance.setIndex (zextAddr nnn))

/-- `I <- trunc_16(I + V[x])`, VF untouched (R191, D16). -/
def execAddIVx (x : RegIdx) (s : State) : Result := .next (s.advance.setIndex (s.index + zextByte (s.reg x)))

/-- `I <- FONT_BASE + 5 * (V[x] & 0xF)` (R192, D14). -/
def execLdFVx (x : RegIdx) (s : State) : Result := .next (s.advance.setIndex (fontAddress s.cfg (s.reg x)))

/-- The three decimal digits of `V[x]` at `I`, `I + 1`, `I + 2`; `I` is kept (R193). -/
def execLdBVx (x : RegIdx) (s : State) : Result :=
  .next (s.advance.storeBytes s.index.toNat (decimalDigits (s.reg x)))

/-- `V[0]..V[x]` stored from `I` on, then the optional increment of `I` (R194). -/
def execLdMemVx (x : RegIdx) (s : State) : Result :=
  .next ((s.advance.storeBytes s.index.toNat ((regsThrough x).map s.reg)).bumpIndex x)

/-- `V[0]..V[x]` loaded from `I` on, then the optional increment of `I` (R195). -/
def execLdVxMem (x : RegIdx) (s : State) : Result := .next ((s.advance.loadRegs (regsThrough x)).bumpIndex x)

end Sys2Proof.Machine
end

