-- ==== Sys2Proof/Machine/Input.lean ====
section
/-! DEFINITION. Key skips and the wait for a key (45_input R181 to R186). -/

namespace Sys2Proof.Machine

/-- `if V[x] > 15 : raise OutOfBoundsAccess; if Keys[V[x]] : PC <- trunc_16(PC + 2)` (R181). -/
def execSkp (x : RegIdx) (s : State) : Result :=
  match keyNumber (s.reg x) with
  | some k => .next (s.advance.skipIf (s.key k))
  | none => .next (s.raise .outOfBoundsAccess)

/-- `if V[x] > 15 : raise OutOfBoundsAccess; if not Keys[V[x]] : PC <- trunc_16(PC + 2)` (R182). -/
def execSknp (x : RegIdx) (s : State) : Result :=
  match keyNumber (s.reg x) with
  | some k => .next (s.advance.skipIf (!s.key k))
  | none => .next (s.raise .outOfBoundsAccess)

/-- `PC <- trunc_16(PC + 0xFFFE); status <- AwaitingKey(x, Keys)`: `PC` is back at the instruction's own address (R183, D11). -/
def execLdVxK (x : RegIdx) (s : State) : Result :=
  .next ((s.advance.setPc (s.advance.pc + 0xFFFE#16)).setStatus (.awaitingKey x s.keys))

/-- Whether key `k` is detected against the baseline `snap` (R185). -/
def keyDetected (trigger : KeyWaitTrigger) (snap keys : Keys) (k : RegIdx) : Bool :=
  match trigger with
  | .edge => keys[k.val] && !snap[k.val]
  | .level => keys[k.val]

/-- The detected key with the lowest index, if any (R186). -/
def firstDetected (trigger : KeyWaitTrigger) (snap keys : Keys) : Option RegIdx :=
  (List.finRange 16).find? (keyDetected trigger snap keys)

/-- One `step()` while AwaitingKey, the block tagged R184: no fetch; on a detected key `V[x] <- k`, `PC + 2`, Running; else a
new baseline. -/
def awaitKeyStep (x : RegIdx) (snap : Keys) (s : State) : State :=
  match firstDetected s.cfg.keyWaitTrigger snap s.keys with
  | some k => (((s.setReg x (BitVec.ofNat 8 k.val)).setPc (s.pc + 2)).setStatus .running).setRender false
  | none => (s.setStatus (.awaitingKey x s.keys)).setRender false

end Sys2Proof.Machine
end

