-- ==== Sys2Proof/Machine/Skip.lean ====
section
/-! DEFINITION. The four register skips (41_alu_skip R131 to R134, R139). -/

namespace Sys2Proof.Machine

/-- `if V[x] == nn : PC <- trunc_16(PC + 2)` (R131). -/
def execSeVxByte (x : RegIdx) (nn : Byte) (s : State) : Result := .next (s.advance.skipIf (s.reg x == nn))

/-- `if V[x] != nn : PC <- trunc_16(PC + 2)` (R132). -/
def execSneVxByte (x : RegIdx) (nn : Byte) (s : State) : Result := .next (s.advance.skipIf (s.reg x != nn))

/-- `if V[x] == V[y] : PC <- trunc_16(PC + 2)` (R133). -/
def execSeVxVy (x y : RegIdx) (s : State) : Result := .next (s.advance.skipIf (s.reg x == s.reg y))

/-- `if V[x] != V[y] : PC <- trunc_16(PC + 2)` (R134). -/
def execSneVxVy (x y : RegIdx) (s : State) : Result := .next (s.advance.skipIf (s.reg x != s.reg y))

end Sys2Proof.Machine
end

