-- ==== Sys2Proof/Machine/Timers.lean ====
section
/-! DEFINITION. The timer instructions and the host's `tick()` (44_timers R170 to R175). -/

namespace Sys2Proof.Machine

/-- `V[x] <- DT` (R173). -/
def execLdVxDt (x : RegIdx) (s : State) : Result := .next (s.advance.setReg x s.dt)

/-- `DT <- V[x]` (R174). -/
def execLdDtVx (x : RegIdx) (s : State) : Result := .next (s.advance.setDelay (s.reg x))

/-- `ST <- V[x]` (R175). -/
def execLdStVx (x : RegIdx) (s : State) : Result := .next (s.advance.setSound (s.reg x))

/-- One timer under `tick()`: down by 1, never below 0 (R170, R171). -/
def countDown (b : Byte) : Byte := if b = 0 then 0 else b - 1

/-- `tick()`: both timers, each on its own test, in every run state, and nothing else (R170, R171). -/
def tick (s : State) : State := { s with dt := countDown s.dt, st := countDown s.st }

end Sys2Proof.Machine
end

