-- ==== Sys2Proof/Machine/Fetch.lean ====
section
/-! DEFINITION. Fetching and decoding (40_fetch_decode R101 to R104), a step of a faulted core (R107), and placing a word where
the next step fetches it. -/

namespace Sys2Proof.Machine

/-- The instruction a Running step executes, or the fault it raises before executing: MisalignedPC first, then
UnrecognizedOpcode (R101, R102, R104, R208). -/
def fetchDecode (s : State) : Except Fault Instr :=
  if s.cfg.oddPcPolicy = .fault ∧ s.pc.toNat % 2 = 1 then .error .misalignedPC
  else
    match decode s.cfg.gkOpcodes s.fetchWord with
    | .ok i => .ok i
    | .error _ => .error .unrecognizedOpcode

/-- `step()` in Faulted: no state changes and the render output is false (R107, R108). -/
def stepFaulted (s : State) : State := s.setRender false

/-- `PC` made one a Running step can fetch at: bit 0 cleared where an odd `PC` would fault (R101). -/
def fetchablePc (s : State) : Word :=
  if s.cfg.oddPcPolicy = .fault then BitVec.ofNat 16 (s.pc.toNat / 2 * 2) else s.pc

/-- The word `w` stored big-endian where a Running step fetches (R52, R102): the core is made Running and, under
ODD_PC_POLICY = FAULT, the pc even, since a step in any other state does not fetch (log entry 13). -/
def placeWord (s : State) (w : Word) : State :=
  ((s.setStatus .running).setPc (fetchablePc s)).storeBytes (fetchablePc s).toNat [highByte w, lowByte w]

end Sys2Proof.Machine
end

