-- ==== Sys2Proof/Machine/Step.lean ====
section
/-! DEFINITION. One `step()` (40_fetch_decode R100), and the word the next step fetches. -/

namespace Sys2Proof.Machine

/-- One fetch-decode-execute cycle of a Running core (R101 to R105). -/
def runStep (s : State) : Result :=
  match fetchDecode s with
  | .ok i => exec i s
  | .error k => .next (s.raise k)

/-- `step()`: by `status`, do nothing, poll the keys, or run one instruction (R100). -/
def step (s : State) : Host.Outcome State Fault Refusal :=
  match s.status with
  | .faulted _ => .next (stepFaulted s)
  | .awaitingKey x snap => .next (awaitKeyStep x snap s)
  | .running => runStep s

/-- `s` with the instruction whose bits are `w` where the next step fetches (log entry 13). -/
def State.withFetchWord (s : State) (nbits w : Nat) : State := placeWord s (tableWord nbits w)

end Sys2Proof.Machine
end

