-- ==== Sys2Proof/Machine/Environment.lean ====
section
/-! DEFINITION. What the host does to the core and sees of it, besides `step()` and `tick()` (60_exceptions R214, 70 R220 to
R223). -/

namespace Sys2Proof.Machine

/-- `load(bytes)` on a constructed core: more than 3584 bytes is `RomTooLarge` and no core exists; else the bytes go to 0x200
on, after the font (R220 to R223). A second load, or a step before the load, has no meaning and no form here (R224, log
entry 17). -/
def load (cfg : Config) (rom : List Byte) : Except LoadError State :=
  if rom.length ≤ 3584 then .ok ((State.resetWith cfg).storeBytes 0x200 rom) else .error .romTooLarge

/-- The host's write of the Key State, between two calls (R180, R214). -/
def writeKeys (ks : Keys) (s : State) : State := { s with keys := ks }

/-- The fatal-fault output: the record while Faulted, else none (R109). -/
def State.faultOutput (s : State) : Option FaultRecord :=
  match s.status with
  | .faulted r => some r
  | .running | .awaitingKey _ _ => none

/-- The tone-active output: `ST > 0` (R33, R176). -/
def State.toneActive (s : State) : Bool := decide (0 < s.st.toNat)

/-- At rest: Running, `PC` even, and the word at `PC` is a jump to `PC` itself (R227). -/
def State.atRest (s : State) : Bool :=
  decide (s.status = .running) && decide (s.pc.toNat % 2 = 0) && decide (opField s.fetchWord = 0x1#4)
    && decide (zextAddr (nnnField s.fetchWord) = s.pc)

end Sys2Proof.Machine
end

