-- ==== Sys2Proof/Machine/Moves.lean ====
section
/-! DEFINITION. The host's moves on a loaded core and the schedules it may choose (60_exceptions R214, 70 R232). -/

namespace Sys2Proof.Machine

/-- What the host may do to a loaded core (R214); reading an output or quitting changes nothing. -/
inductive Move where
  /-- a call of `step()` -/
  | step
  /-- a call of `tick()` -/
  | tick
  /-- a write of the Key State -/
  | keys (ks : Keys)
  deriving DecidableEq, Repr

/-- One move of the host. -/
def applyMove (m : Move) (s : State) : Result :=
  match m with
  | .step => Sys2Proof.Machine.step s
  | .tick => .next (Sys2Proof.Machine.tick s)
  | .keys ks => .next (writeKeys ks s)

/-- A schedule: the moves one after another, in the order the host chose (R232). -/
def applyMoves : List Move → State → Result
  | [], s => .next s
  | m :: ms, s =>
    match applyMove m s with
    | .next t => applyMoves ms t
    | .fault r => .fault r
    | .refused r => .refused r

end Sys2Proof.Machine
end

