-- ==== Sys2Proof/Safety.lean ====
section
/-! DEFINITION. The terms claims are stated in: the parts of the state and what a transition changes, completing and faulting,
the sprite a draw puts on the display, and the invariant of a core. -/

namespace Sys2Proof

open Sys2Proof.Machine

/-- One separately addressable piece of the state (10_state R20 to R32, with the configuration and the model's own draw
counter). Memory and the display are split to the byte and to the cell. -/
inductive Part where
  | reg (r : RegIdx)
  | index
  | pc
  | sp
  | slot (j : Fin 16)
  | delay
  | sound
  | cell (px : Fin 64) (py : Fin 32)
  | key (k : RegIdx)
  | byte (a : Fin 4096)
  | status
  | config
  | render
  | draws
  deriving DecidableEq, Repr

/-- The two states agree on this part; a byte is compared by reading it (R51). -/
def Part.Same (p : Part) (s t : State) : Prop :=
  match p with
  | .reg r => t.reg r = s.reg r
  | .index => t.index = s.index
  | .pc => t.pc = s.pc
  | .sp => t.sp = s.sp
  | .slot j => t.slot j = s.slot j
  | .delay => t.dt = s.dt
  | .sound => t.st = s.st
  | .cell px py => t.disp.cell px py = s.disp.cell px py
  | .key k => t.key k = s.key k
  | .byte a => t.memRead a = s.memRead a
  | .status => t.status = s.status
  | .config => t.cfg = s.cfg
  | .render => t.render = s.render
  | .draws => t.draws = s.draws

/-- Every part of the state but the touched ones is as it was: the frame of a transition from `s` to `t`. -/
def ChangesOnly (touched : Part → Prop) (s t : State) : Prop := ∀ p, ¬ touched p → p.Same s t

/-- Exactly the parts of a list. -/
def among (ps : List Part) (p : Part) : Prop := p ∈ ps

/-- A part that is one of the `len` bytes of memory from `a` on, each address masked on its own (R51). -/
def bytesFrom (a len : Nat) (p : Part) : Prop := ∃ k < len, ∃ b : Fin 4096, b.val = (a + k) % 4096 ∧ p = .byte b

/-- The word `w` is the instruction's encoding, and the instruction completes from `s`: `exec` answers a next state that
changes only the touched parts and has the stated properties. -/
def Completes (w : Word) (i : Instr) (s : State) (touched : Part → Prop) (post : State → Prop) : Prop :=
  decode .enabled w = .ok i ∧ ∃ t, exec i s = .next t ∧ ChangesOnly touched s t ∧ post t

/-- `PC` ends at the following instruction (R103). -/
def FallsThrough (s t : State) : Prop := t.pc.toNat = (s.pc.toNat + 2) % 65536

/-- The step from `s` ended in the fault `kind`, precisely: only `status` and the render output changed, and the record holds
the kind, the fetched word, `pc0` and `SP` (R105, R205). -/
def FaultedFrom (kind : Fault) (s t : State) : Prop :=
  ChangesOnly (among [.status, .render]) s t ∧ t.render = false ∧
    t.status = .faulted { kind := kind, word := s.fetchWord, pc := s.pc, sp := s.sp }

/-- A flag as a register holds it. -/
def flagNat (p : Prop) [Decidable p] : Nat := if p then 1 else 0

/-! ## The sprite of a draw (43_display R161 to R164) -/

/-- Whether the sprite of `n` rows at `I`, with its top-left pixel at `(vx, vy)`, has a set bit at `(px, py)`: bit 7 of a row
is its leftmost pixel, row `r` is the byte at `I + r`, and nothing wraps. -/
def spriteBit (s : State) (vx vy n px py : Nat) : Bool :=
  decide (vx ≤ px) && decide (px < vx + 8) && decide (vy ≤ py) && decide (py < vy + n)
    && (s.memRead (s.index.toNat + (py - vy))).getLsbD (7 - (px - vx))

/-- Some set sprite bit lands inside the display on a set cell (R162). -/
def spriteCollides (s : State) (vx vy n : Nat) : Prop :=
  ∃ (px : Fin 64) (py : Fin 32), spriteBit s vx vy n px py = true ∧ s.disp.cell px py = true

/-- Some set sprite bit lands inside the display (R166). -/
def spriteVisible (s : State) (vx vy n : Nat) : Prop :=
  ∃ (px : Fin 64) (py : Fin 32), spriteBit s vx vy n px py = true

/-- A part that is a display cell under a set sprite bit. -/
def spriteCells (s : State) (vx vy n : Nat) (p : Part) : Prop :=
  ∃ (px : Fin 64) (py : Fin 32), spriteBit s vx vy n px py = true ∧ p = .cell px py

/-! ## The unrecognized words (30_encoding R80) -/

/-- R80's list, read off the digits of the word `w` as a number. -/
def Unrecognized (gk : GkOpcodes) (w : Nat) : Prop :=
  let op := w / 4096
  let nn := w % 256
  let n := w % 16
  (op = 0x0 ∧ w ≠ 0x00E0 ∧ w ≠ 0x00EE)
    ∨ ((op = 0x5 ∨ op = 0x9) ∧ n ≠ 0)
    ∨ (op = 0x8 ∧ n ∈ [0x8, 0x9, 0xA, 0xB, 0xC, 0xD, 0xF])
    ∨ (op = 0xE ∧ nn ∉ [0x9E, 0xA1])
    ∨ (op = 0xF ∧ nn ∉ [0x07, 0x0A, 0x15, 0x18, 0x1E, 0x29, 0x33, 0x55, 0x65])
    ∨ (gk = .disabled ∧ op = 0xF ∧ nn ∈ [0x07, 0x15, 0x18, 0x1E, 0x29, 0x33, 0x55, 0x65])
    ∨ (gk = .disabled ∧ op = 0xA)

/-! ## The invariant of a core -/

/-- A Running step does not raise MisalignedPC at this `PC` (R101). -/
def Aligned (s : State) : Prop := s.cfg.oddPcPolicy = .fault → s.pc.toNat % 2 = 0

/-- The cause 60_exceptions R200 gives each fault kind, at the state the fault left (it equals the state before it but for
`status`, R205). -/
def FaultCause (kind : Fault) (s : State) : Prop :=
  match kind with
  | .unrecognizedOpcode => Aligned s ∧ Unrecognized s.cfg.gkOpcodes s.fetchWord.toNat
  | .stackOverflow => Aligned s ∧ s.sp.val = 16 ∧ ∃ nnn, decode s.cfg.gkOpcodes s.fetchWord = .ok (.call nnn)
  | .stackUnderflow => Aligned s ∧ s.sp.val = 0 ∧ decode s.cfg.gkOpcodes s.fetchWord = .ok .ret
  | .outOfBoundsAccess =>
    Aligned s ∧ ∃ x, 16 ≤ (s.reg x).toNat ∧
      (decode s.cfg.gkOpcodes s.fetchWord = .ok (.skp x) ∨ decode s.cfg.gkOpcodes s.fetchWord = .ok (.sknp x))
  | .misalignedPC => ¬ Aligned s

/-- The run state tells the truth: a waiting core stands at the FX0A that waits (R183, R184), and a faulted core's record
describes the state it stands in, with a cause that holds there (R200 to R206). -/
def StatusTruthful (s : State) : Prop :=
  match s.status with
  | .running => True
  | .awaitingKey x _ => Aligned s ∧ decode s.cfg.gkOpcodes s.fetchWord = .ok (.ldVxK x)
  | .faulted r => r.pc = s.pc ∧ r.sp = s.sp ∧ r.word = s.fetchWord ∧ FaultCause r.kind s

/-- Memory is in the model's own canonical form (log entry 12). -/
def CanonicalMemory (s : State) : Prop := Memory.wf s.cfg s.mem = true

/-- The invariant of a core under every move of the host: the model's form of memory and a truthful run state. -/
def CoreInvariant (s : State) : Prop := CanonicalMemory s ∧ StatusTruthful s

/-! ## Schedules (70 R232) -/

/-- How many `tick()` calls a schedule holds. -/
def tickCount : List Move → Nat
  | [] => 0
  | .tick :: ms => tickCount ms + 1
  | .step :: ms => tickCount ms
  | .keys _ :: ms => tickCount ms

/-- A move that presses no key. -/
def pressesNothing : Move → Prop
  | .step => True
  | .tick => True
  | .keys ks => ∀ k : RegIdx, ks[k.val] = false

/-- A chain of CALLs, each executed in the state the one before it left (R154). -/
def callChain : List Addr → State → Result
  | [], s => .next s
  | a :: rest, s =>
    match exec (.call a) s with
    | .next t => callChain rest t
    | .fault r => .fault r
    | .refused r => .refused r

/-- So many RETs in a row (R154). -/
def returnChain : Nat → State → Result
  | 0, s => .next s
  | n + 1, s =>
    match exec .ret s with
    | .next t => returnChain n t
    | .fault r => .fault r
    | .refused r => .refused r

end Sys2Proof
end

