-- ==== Sys2Proof/Certificates/Slice0/Obligations.lean ====
section
/-! DEFINITION. The statements for the provers. A statement about an instruction gives its word, says that exec answers a next
state from every state that meets the stated conditions, gives each value the rule gives, and names every part of the state that
may change (its frame: all other parts, every byte of memory among them, are as before; the render output of a step is
RenderReportsDrawing's). Words other than 6XNN, 7XNN and 8XY4 are the spec's general knowledge (30_encoding R76, D2, log
entry 14), and so are the nine GK opcodes as a whole (D1, log entry 5). The parts `render` and `draws` are the model's own
fields (log entries 2 and 3), and so is the canonical form of memory that some statements assume (log entry 12). -/

open Sys2Proof Sys2Proof.Machine

/-! ## Encoding (30_encoding) -/

/-- R71, R72, R76: the encoding of every instruction a core has decodes to that instruction, operand for operand, from the word
and from its bytes in memory order. -/
def Obligations.EncodeThenDecode : Prop :=
  ∀ (gk : GkOpcodes) (i : Instr), i.wellFormed gk = true →
    decode gk (encode i) = .ok i ∧ ∀ rest, decodeBytes gk (encodeBytes i ++ rest) = .ok (i, rest)

/-- R75, R76, R82: no word decodes to an instruction whose encoding is another word (the ignored field of SHR and SHL is kept,
log entry 15), and what decodes is an instruction the core has. -/
def Obligations.DecodeThenEncode : Prop :=
  ∀ (gk : GkOpcodes) (w : Word) (i : Instr), decode gk w = .ok i → encode i = w ∧ i.wellFormed gk = true

/-- R80 (its list is marked derived): the decoder rejects exactly the words of R80, for both values of GK_OPCODES. -/
def Obligations.RejectsExactlyTheUnrecognizedWords : Prop :=
  ∀ (gk : GkOpcodes) (w : Word), (∃ r, decode gk w = .error r) ↔ Unrecognized gk w.toNat

/-- Words written out from the spec's encodings and the instructions they stand for; a sanity check. -/
def Obligations.SpecWordsDecodeAsWritten : Prop :=
  decode .enabled 0x6A12#16 = .ok (.ldVxByte 0xA 0x12) ∧ decode .enabled 0x7101#16 = .ok (.addVxByte 1 0x01) ∧
  decode .enabled 0x8124#16 = .ok (.addVxVy 1 2) ∧ decode .enabled 0x00E0#16 = .ok .cls ∧
  decode .enabled 0x2300#16 = .ok (.call 0x300) ∧ decode .enabled 0xD125#16 = .ok (.drw 1 2 5) ∧
  decode .enabled 0xE29E#16 = .ok (.skp 2) ∧ decode .enabled 0xF265#16 = .ok (.ldVxMem 2) ∧
  decode .enabled 0x5011#16 = .error .fiveGroup ∧ decode .disabled 0xF307#16 = .error .gkDisabled

/-! ## The step (40_fetch_decode, 60_exceptions) -/

/-- R102: the fetched word is the byte at `pc0` times 256 plus the byte at `pc0 + 1`, each address masked on its own. -/
def Obligations.FetchReadsTwoMaskedBytes : Prop :=
  ∀ s : State, s.fetchWord.toNat =
    (s.memRead (s.pc.toNat % 4096)).toNat * 256 + (s.memRead ((s.pc.toNat + 1) % 4096)).toNat

/-- R100, R104, R105: a Running step that may fetch at its `PC` and whose word decodes to `i` is exec of `i` at that very
state. Moving past the word is part of each meaning (R103), as the statements about the instructions say. -/
def Obligations.StepRunsTheDecodedInstruction : Prop :=
  ∀ (s : State) (i : Instr), s.status = .running → Aligned s → decode s.cfg.gkOpcodes s.fetchWord = .ok i →
    step s = exec i s

/-- A word placed where the next step fetches is the instruction that step runs (log entry 13). -/
def Obligations.PlacedWordIsRun : Prop :=
  ∀ (s : State) (nbits w : Nat) (i : Instr), CanonicalMemory s →
    decode s.cfg.gkOpcodes (tableWord nbits w) = .ok i →
    step (s.withFetchWord nbits w) = exec i (s.withFetchWord nbits w)

/-- R11 (marked derived): every step of every state answers a next state; nothing is refused, and a fault is a next state
(log entry 1). -/
def Obligations.EveryStepAnswers : Prop := ∀ s : State, ∃ t, step s = .next t

/-- R201 (decision D5 for the precise fault, D9 for strict decoding): a Running step on an unrecognized word ends Faulted with
the word and `pc0` in its record and does not advance. -/
def Obligations.UnrecognizedWordFaults : Prop :=
  ∀ s : State, s.status = .running → Aligned s → Unrecognized s.cfg.gkOpcodes s.fetchWord.toNat →
    ∃ t, step s = .next t ∧ FaultedFrom .unrecognizedOpcode s t

/-- R101, R206, R208 (decisions D4, D31, D34): a Running step at an odd `PC` under ODD_PC_POLICY = FAULT raises MisalignedPC,
whatever the word is. -/
def Obligations.OddPcFaultsBeforeDecode : Prop :=
  ∀ s : State, s.status = .running → ¬ Aligned s → ∃ t, step s = .next t ∧ FaultedFrom .misalignedPC s t

/-- R105, R205 (decision D5): an instruction executed while Running that ends Faulted changed nothing but `status` and the
render output, and its record holds the kind, the fetched word, `pc0` and `SP`. -/
def Obligations.FaultsArePrecise : Prop :=
  ∀ (i : Instr) (s t : State) (r : FaultRecord), s.status = .running → exec i s = .next t → t.status = .faulted r →
    FaultedFrom r.kind s t

/-- R108 (decisions D17, D18): a step asks for a render exactly when it ran CLS or DRW. -/
def Obligations.RenderReportsDrawing : Prop :=
  ∀ s t : State, step s = .next t →
    (t.render = true ↔ s.status = .running ∧ Aligned s ∧
      ∃ i, decode s.cfg.gkOpcodes s.fetchWord = .ok i ∧ (i = .cls ∨ ∃ x y n, i = .drw x y n))

/-- R32 (log entry 2): the render output of the last step has no influence on the next one. -/
def Obligations.RenderIsOnlyAnOutput : Prop :=
  ∀ (s : State) (b : Bool), step (s.setRender b) = step s

/-! ## Reset and load (70_reset_and_hazards) -/

/-- R35 (decisions D7, D8): every piece of the state after construction and the load of an empty ROM, for every configuration
whose font lies in the reserved range. -/
def Obligations.ResetValues : Prop :=
  ∀ cfg : Config, cfg.fontFits = true →
    (∀ r, (State.resetWith cfg).reg r = 0) ∧ (∀ j, (State.resetWith cfg).slot j = 0) ∧
    (∀ k, (State.resetWith cfg).key k = false) ∧ (∀ px py, (State.resetWith cfg).disp.cell px py = false) ∧
    (∀ a (h : a < 80), (State.resetWith cfg).memRead (cfg.fontBase.toNat + a) = cfg.fontData[a]) ∧
    (∀ a < 4096, (a < cfg.fontBase.toNat ∨ cfg.fontBase.toNat + 80 ≤ a) → (State.resetWith cfg).memRead a = 0) ∧
    (State.resetWith cfg).index = 0 ∧ (State.resetWith cfg).pc = 0x200 ∧ (State.resetWith cfg).sp = 0 ∧
    (State.resetWith cfg).dt = 0 ∧ (State.resetWith cfg).st = 0 ∧ (State.resetWith cfg).status = .running ∧
    (State.resetWith cfg).render = false ∧ (State.resetWith cfg).cfg = cfg ∧ State.reset = State.resetWith Config.default

/-- R222, R223 (decision D30 for the empty ROM): a ROM of more than 3584 bytes yields no core; any other is copied to 0x200 on,
over the reset state, and changes nothing else. -/
def Obligations.LoadPlacesTheRom : Prop :=
  ∀ (cfg : Config) (rom : List Byte),
    (3584 < rom.length → load cfg rom = .error .romTooLarge) ∧
    (rom.length ≤ 3584 → ∃ s, load cfg rom = .ok s ∧ (∀ k (h : k < rom.length), s.memRead (0x200 + k) = rom[k]) ∧
      ChangesOnly (bytesFrom 0x200 rom.length) (State.resetWith cfg) s)

/-! ## Register moves, arithmetic, skips, random (41_alu_skip) -/

/-- R120. -/
def Obligations.LdVxByteLoadsTheImmediate : Prop :=
  ∀ (s : State) (x : RegIdx) (nn : Byte),
    Completes (wordXNN 0x6 x nn) (.ldVxByte x nn) s (among [.reg x, .pc, .render])
      (fun t => t.reg x = nn ∧ FallsThrough s t)

/-- R121 to R124: the move and the three bitwise operations, with no flag effect. -/
def Obligations.MoveAndLogicOfRegisters : Prop :=
  ∀ (s : State) (x y : RegIdx),
    Completes (wordXYN 0x8 x y 0x0) (.ldVxVy x y) s (among [.reg x, .pc, .render])
      (fun t => t.reg x = s.reg y ∧ FallsThrough s t) ∧
    Completes (wordXYN 0x8 x y 0x1) (.orVxVy x y) s (among [.reg x, .pc, .render])
      (fun t => (∀ b, (t.reg x).getLsbD b = ((s.reg x).getLsbD b || (s.reg y).getLsbD b)) ∧ FallsThrough s t) ∧
    Completes (wordXYN 0x8 x y 0x2) (.andVxVy x y) s (among [.reg x, .pc, .render])
      (fun t => (∀ b, (t.reg x).getLsbD b = ((s.reg x).getLsbD b && (s.reg y).getLsbD b)) ∧ FallsThrough s t) ∧
    Completes (wordXYN 0x8 x y 0x3) (.xorVxVy x y) s (among [.reg x, .pc, .render])
      (fun t => (∀ b, (t.reg x).getLsbD b = ((s.reg x).getLsbD b ^^ (s.reg y).getLsbD b)) ∧ FallsThrough s t)

/-- R125: 8-bit wraparound, and VF is no exception to the frame. -/
def Obligations.AddVxByteWrapsWithoutFlag : Prop :=
  ∀ (s : State) (x : RegIdx) (nn : Byte),
    Completes (wordXNN 0x7 x nn) (.addVxByte x nn) s (among [.reg x, .pc, .render])
      (fun t => (t.reg x).toNat = ((s.reg x).toNat + nn.toNat) % 256 ∧ FallsThrough s t)

/-- R126, and R137 (decision D10) for x = 0xF: VF holds the carry; Vx holds the low eight bits unless it is VF. -/
def Obligations.AddVxVySetsCarry : Prop :=
  ∀ (s : State) (x y : RegIdx),
    Completes (wordXYN 0x8 x y 0x4) (.addVxVy x y) s (among [.reg x, .reg vf, .pc, .render])
      (fun t => (x ≠ vf → (t.reg x).toNat = ((s.reg x).toNat + (s.reg y).toNat) % 256) ∧
        (t.reg vf).toNat = flagNat ((s.reg x).toNat + (s.reg y).toNat > 0xFF) ∧ FallsThrough s t)

/-- R127, R128 (decisions D35, D10): VF is 1 when the minuend is greater, SUB_VF_ON_EQUAL when the operands are equal, else 0;
Vx holds the difference modulo 256 unless it is VF. -/
def Obligations.SubAndSubnSetNotBorrow : Prop :=
  ∀ (s : State) (x y : RegIdx),
    Completes (wordXYN 0x8 x y 0x5) (.sub x y) s (among [.reg x, .reg vf, .pc, .render])
      (fun t => (x ≠ vf → (t.reg x).toNat = ((s.reg x).toNat + 256 - (s.reg y).toNat) % 256) ∧
        (t.reg vf).toNat = (if (s.reg x).toNat > (s.reg y).toNat then 1
          else if (s.reg x).toNat = (s.reg y).toNat then flagNat (s.cfg.subVfOnEqual = true) else 0) ∧ FallsThrough s t) ∧
    Completes (wordXYN 0x8 x y 0x7) (.subn x y) s (among [.reg x, .reg vf, .pc, .render])
      (fun t => (x ≠ vf → (t.reg x).toNat = ((s.reg y).toNat + 256 - (s.reg x).toNat) % 256) ∧
        (t.reg vf).toNat = (if (s.reg y).toNat > (s.reg x).toNat then 1
          else if (s.reg y).toNat = (s.reg x).toNat then flagNat (s.cfg.subVfOnEqual = true) else 0) ∧ FallsThrough s t)

/-- R129, R130, R82, and R137 (decision D10) for x = 0xF: the y field is ignored; VF holds the bit shifted out. -/
def Obligations.ShiftsSetTheBitShiftedOut : Prop :=
  ∀ (s : State) (x y : RegIdx),
    Completes (wordXYN 0x8 x y 0x6) (.shr x y) s (among [.reg x, .reg vf, .pc, .render])
      (fun t => (x ≠ vf → (t.reg x).toNat = (s.reg x).toNat / 2) ∧ (t.reg vf).toNat = (s.reg x).toNat % 2 ∧
        FallsThrough s t) ∧
    Completes (wordXYN 0x8 x y 0xE) (.shl x y) s (among [.reg x, .reg vf, .pc, .render])
      (fun t => (x ≠ vf → (t.reg x).toNat = (s.reg x).toNat * 2 % 256) ∧ (t.reg vf).toNat = (s.reg x).toNat / 128 ∧
        FallsThrough s t)

/-- R135, R140: Vx is the drawn byte ANDed with `nn`, for every byte the free value may be; the next execution draws another
one (that clause is the model's, log entry 3). -/
def Obligations.RndMasksAFreeByte : Prop :=
  ∀ (s : State) (x : RegIdx) (nn : Byte),
    Completes (wordXNN 0xC x nn) (.rnd x nn) s (among [.reg x, .draws, .pc, .render])
      (fun t => (∀ b, (t.reg x).getLsbD b = ((Config.randomByte s.draws).getLsbD b && nn.getLsbD b)) ∧
        t.draws = s.draws + 1 ∧ FallsThrough s t)

/-- R131, R132: a skip on a byte goes two bytes further exactly when its condition holds, and changes no register. -/
def Obligations.ByteSkipsAddTwo : Prop :=
  ∀ (s : State) (x : RegIdx) (nn : Byte),
    Completes (wordXNN 0x3 x nn) (.seVxByte x nn) s (among [.pc, .render])
      (fun t => t.pc.toNat = (s.pc.toNat + if s.reg x = nn then 4 else 2) % 65536) ∧
    Completes (wordXNN 0x4 x nn) (.sneVxByte x nn) s (among [.pc, .render])
      (fun t => t.pc.toNat = (s.pc.toNat + if s.reg x = nn then 2 else 4) % 65536)

/-- R133, R134 (decision D9 for n not 0): the same on two registers; a word with another n is unrecognized. -/
def Obligations.RegisterSkipsAddTwo : Prop :=
  ∀ (s : State) (x y : RegIdx),
    Completes (wordXYN 0x5 x y 0x0) (.seVxVy x y) s (among [.pc, .render])
      (fun t => t.pc.toNat = (s.pc.toNat + if s.reg x = s.reg y then 4 else 2) % 65536 ∧ t.render = false) ∧
    Completes (wordXYN 0x9 x y 0x0) (.sneVxVy x y) s (among [.pc, .render])
      (fun t => t.pc.toNat = (s.pc.toNat + if s.reg x = s.reg y then 2 else 4) % 65536 ∧ t.render = false) ∧
    ∀ (gk : GkOpcodes) (n : BitVec 4), n ≠ 0 →
      decode gk (wordXYN 0x5 x y n) = .error .fiveGroup ∧ decode gk (wordXYN 0x9 x y n) = .error .nineGroup

/-! ## Control flow (42_control_flow) -/

/-- R150, R151: the target is `nnn`, or V0 plus `nnn` with no truncation and no mask. -/
def Obligations.JumpsSetPc : Prop :=
  ∀ (s : State) (nnn : Addr),
    Completes (wordNNN 0x1 nnn) (.jp nnn) s (among [.pc, .render])
      (fun t => t.pc.toNat = nnn.toNat ∧ t.render = false) ∧
    Completes (wordNNN 0xB nnn) (.jpV0 nnn) s (among [.pc, .render])
      (fun t => t.pc.toNat = (s.reg 0).toNat + nnn.toNat ∧ t.render = false)

/-- R152, R110, R202 (decision D5 for the precise fault): CALL stores the following address in the slot at the old SP, or
raises StackOverflow when the stack is full. -/
def Obligations.CallPushesOrOverflows : Prop :=
  ∀ (s : State) (nnn : Addr),
    (∀ j : Fin 16, s.sp.val = j.val →
      Completes (wordNNN 0x2 nnn) (.call nnn) s (among [.slot j, .sp, .pc, .render])
        (fun t => (t.slot j).toNat = (s.pc.toNat + 2) % 65536 ∧ t.sp.val = s.sp.val + 1 ∧ t.pc.toNat = nnn.toNat ∧
          t.render = false)) ∧
    (s.sp.val = 16 → ∃ t, exec (.call nnn) s = .next t ∧ FaultedFrom .stackOverflow s t)

/-- R153, R203 (decision D5 for the precise fault, D29 for the kept slot): RET takes SP down and reads the slot there, which
keeps its value, or raises StackUnderflow when the stack is empty. -/
def Obligations.RetPopsOrUnderflows : Prop :=
  ∀ s : State,
    (∀ j : Fin 16, s.sp.val = j.val + 1 →
      Completes 0x00EE#16 .ret s (among [.sp, .pc, .render])
        (fun t => t.sp.val = j.val ∧ t.pc = s.slot j ∧ t.render = false)) ∧
    (s.sp.val = 0 → ∃ t, exec .ret s = .next t ∧ FaultedFrom .stackUnderflow s t)

/-- R154: however many CALLs fit on the stack, as many RETs bring PC to the instruction after the first CALL and SP to where it
was; on a stack the CALLs have filled, one more CALL raises StackOverflow and changes nothing (decision D5). -/
def Obligations.NestedCallsReturn : Prop :=
  ∀ (s : State) (a : Addr) (rest : List Addr), s.sp.val + (a :: rest).length ≤ 16 →
    ∃ t, callChain (a :: rest) s = .next t ∧ t.sp.val = s.sp.val + (a :: rest).length ∧
      (∃ u, returnChain (a :: rest).length t = .next u ∧ u.pc.toNat = (s.pc.toNat + 2) % 65536 ∧
        ChangesOnly (fun p => among [.pc, .render] p ∨ ∃ j : Fin 16, s.sp.val ≤ j.val ∧ p = .slot j) s u) ∧
      (t.sp.val = 16 → ∀ b, ∃ u, exec (.call b) t = .next u ∧ FaultedFrom .stackOverflow t u)

/-- R25, R26: SP and the stack slots change only in a step that ran CALL or RET, the slots only by CALL. -/
def Obligations.OnlyCallAndRetTouchTheStack : Prop :=
  ∀ (m : Move) (s t : State), applyMove m s = .next t →
    (t.sp ≠ s.sp → m = .step ∧ s.status = .running ∧
      (decode s.cfg.gkOpcodes s.fetchWord = .ok .ret ∨ ∃ nnn, decode s.cfg.gkOpcodes s.fetchWord = .ok (.call nnn))) ∧
    (t.stack ≠ s.stack → m = .step ∧ s.status = .running ∧
      ∃ nnn, decode s.cfg.gkOpcodes s.fetchWord = .ok (.call nnn))

/-! ## Display (43_display) -/

/-- R160 (decision D17 for the render output). -/
def Obligations.ClsClearsEveryCell : Prop :=
  ∀ s : State,
    Completes 0x00E0#16 .cls s (fun p => among [.pc, .render] p ∨ ∃ px py, p = .cell px py)
      (fun t => (∀ px py, t.disp.cell px py = false) ∧ t.pc.toNat = (s.pc.toNat + 2) % 65536 ∧ t.render = true)

/-- R161 to R164 (decisions D20, D21; the bit order is general knowledge): every cell becomes itself XOR the sprite's bit
there, VF is 1 exactly when a set sprite bit met a set cell inside the display, and a render is asked for; nothing wraps. -/
def Obligations.DrwXorsTheSprite : Prop :=
  ∀ (s : State) (x y : RegIdx) (n : BitVec 4),
    Completes (wordXYN 0xD x y n) (.drw x y n) s
      (fun p => among [.reg vf, .pc, .render] p ∨ spriteCells s (s.reg x).toNat (s.reg y).toNat n.toNat p)
      (fun t =>
        (∀ (px : Fin 64) (py : Fin 32), t.disp.cell px py =
          (s.disp.cell px py ^^ spriteBit s (s.reg x).toNat (s.reg y).toNat n.toNat px py)) ∧
        (t.reg vf = 1 ∧ spriteCollides s (s.reg x).toNat (s.reg y).toNat n.toNat ∨
          t.reg vf = 0 ∧ ¬ spriteCollides s (s.reg x).toNat (s.reg y).toNat n.toNat) ∧
        t.pc.toNat = (s.pc.toNat + 2) % 65536 ∧ t.render = true)

/-- R166, with its flag clause as R161 gives it (log entry 22): a second draw of the same sprite at the same place restores
every cell; it reports VF = 1 exactly when some set bit lies inside the display on a cell that was clear before the first
draw, so on every visible sprite when the display was clear; when no set bit is inside, both draws report VF = 0. -/
def Obligations.DrawingTwiceRestores : Prop :=
  ∀ (s t : State) (x y : RegIdx) (n : BitVec 4), exec (.drw x y n) s = .next t →
    t.reg x = s.reg x → t.reg y = s.reg y →
    ∃ u, exec (.drw x y n) t = .next u ∧
      (∀ (px : Fin 64) (py : Fin 32), u.disp.cell px py = s.disp.cell px py) ∧
      (u.reg vf = 1 ↔ ∃ (px : Fin 64) (py : Fin 32),
        spriteBit s (s.reg x).toNat (s.reg y).toNat n.toNat px py = true ∧ s.disp.cell px py = false) ∧
      (¬ spriteVisible s (s.reg x).toNat (s.reg y).toNat n.toNat → t.reg vf = 0 ∧ u.reg vf = 0)

/-- R166 AS IT IS WRITTEN: the second draw reports VF = 1 whenever the sprite has a set bit inside the display, whatever the
display held before. EXPECTED TO FAIL: where the first draw met a set cell it cleared it, and the second draw meets a clear one
(log entry 22). -/
def Obligations.SecondDrawCollidesWhateverWasThere : Prop :=
  ∀ (s t : State) (x y : RegIdx) (n : BitVec 4), exec (.drw x y n) s = .next t →
    t.reg x = s.reg x → t.reg y = s.reg y → spriteVisible s (s.reg x).toNat (s.reg y).toNat n.toNat →
    ∃ u, exec (.drw x y n) t = .next u ∧ u.reg vf = 1

/-- R166's flag clause with the reason the rule gives for it ("because every such cell was set by the first draw"): when a
visible sprite's first draw met no set cell, that draw set every cell under a set bit inside the display, and the second draw
of it there reports VF = 1. Where the first draw met set cells, the reason does not hold (log entry 22). -/
def Obligations.SecondDrawCollidesOnWhatTheFirstSet : Prop :=
  ∀ (s t : State) (x y : RegIdx) (n : BitVec 4), exec (.drw x y n) s = .next t →
    t.reg x = s.reg x → t.reg y = s.reg y → t.reg vf = 0 →
    spriteVisible s (s.reg x).toNat (s.reg y).toNat n.toNat →
    (∀ (px : Fin 64) (py : Fin 32), spriteBit s (s.reg x).toNat (s.reg y).toNat n.toNat px py = true →
      t.disp.cell px py = true) ∧
    ∃ u, exec (.drw x y n) t = .next u ∧ u.reg vf = 1

/-- R165: the display changes only in a step that ran CLS or DRW and did not fault; no tick and no key write changes it. -/
def Obligations.OnlyClsAndDrwWriteTheDisplay : Prop :=
  ∀ (m : Move) (s t : State), applyMove m s = .next t → t.disp ≠ s.disp →
    m = .step ∧ s.status = .running ∧ t.status = .running ∧
      ∃ i, decode s.cfg.gkOpcodes s.fetchWord = .ok i ∧ (i = .cls ∨ ∃ x y n, i = .drw x y n)

/-! ## Timers (44_timers) -/

/-- R173 to R175: the timer moves; without the GK opcodes their words do not decode. -/
def Obligations.TimerMoves : Prop :=
  ∀ (s : State) (x : RegIdx),
    Completes (wordXNN 0xF x 0x07) (.ldVxDt x) s (among [.reg x, .pc, .render])
      (fun t => t.reg x = s.dt ∧ FallsThrough s t) ∧
    Completes (wordXNN 0xF x 0x15) (.ldDtVx x) s (among [.delay, .pc, .render])
      (fun t => t.dt = s.reg x ∧ FallsThrough s t) ∧
    Completes (wordXNN 0xF x 0x18) (.ldStVx x) s (among [.sound, .pc, .render])
      (fun t => t.st = s.reg x ∧ (t.toneActive = true ↔ s.reg x ≠ 0) ∧ FallsThrough s t) ∧
    ∀ nn ∈ [0x07#8, 0x15#8, 0x18#8], decode .disabled (wordXNN 0xF x nn) = .error .gkDisabled

/-- R170, R171: each timer goes down by one on its own test, never below 0, in every run state (decision D25), and `tick()`
changes nothing else; that it keeps the render latch too is the model's choice (log entry 2). -/
def Obligations.TickCountsDown : Prop :=
  ∀ s : State, (tick s).dt.toNat = s.dt.toNat - 1 ∧ (tick s).st.toNat = s.st.toNat - 1 ∧
    ChangesOnly (among [.delay, .sound]) s (tick s)

/-- R172: a step changes DT or ST only by running the explicit load of that timer, on a core with the GK opcodes. -/
def Obligations.StepsWriteTimersOnlyByTheirLoads : Prop :=
  ∀ s t : State, step s = .next t →
    (t.dt ≠ s.dt → s.status = .running ∧ s.cfg.gkOpcodes = .enabled ∧
      ∃ x, decode s.cfg.gkOpcodes s.fetchWord = .ok (.ldDtVx x) ∧ t.dt = s.reg x) ∧
    (t.st ≠ s.st → s.status = .running ∧ s.cfg.gkOpcodes = .enabled ∧
      ∃ x, decode s.cfg.gkOpcodes s.fetchWord = .ok (.ldStVx x) ∧ t.st = s.reg x)

/-! ## Input (45_input) -/

/-- R181, R182, R204 (decisions D13, D5): the two key skips on a register that names a key, and their fault on one that does
not. -/
def Obligations.KeySkipsTestTheLevel : Prop :=
  ∀ (s : State) (x : RegIdx),
    (∀ k : RegIdx, (s.reg x).toNat = k.val →
      Completes (wordXNN 0xE x 0x9E) (.skp x) s (among [.pc, .render])
        (fun t => t.pc.toNat = (s.pc.toNat + if s.key k = true then 4 else 2) % 65536 ∧ t.render = false) ∧
      Completes (wordXNN 0xE x 0xA1) (.sknp x) s (among [.pc, .render])
        (fun t => t.pc.toNat = (s.pc.toNat + if s.key k = true then 2 else 4) % 65536 ∧ t.render = false)) ∧
    (16 ≤ (s.reg x).toNat →
      (∃ t, exec (.skp x) s = .next t ∧ FaultedFrom .outOfBoundsAccess s t) ∧
      (∃ t, exec (.sknp x) s = .next t ∧ FaultedFrom .outOfBoundsAccess s t))

/-- R183 (decision D11): FX0A stays at its own address, takes the Key State as the baseline and writes no register. -/
def Obligations.LdVxKStartsTheWait : Prop :=
  ∀ (s : State) (x : RegIdx),
    Completes (wordXNN 0xF x 0x0A) (.ldVxK x) s (among [.status, .render])
      (fun t => t.status = .awaitingKey x s.keys ∧ t.render = false)

/-- R184 to R186 (decisions D11, D12): a step of a waiting core detects the keys pressed now and, under EDGE, not in the
baseline. With one detected, the lowest goes to Vx, PC advances by 2 and the core runs; with none, the baseline is renewed and
nothing else. -/
def Obligations.WaitingStepPollsTheKeys : Prop :=
  ∀ (s : State) (x : RegIdx) (snap : Keys), s.status = .awaitingKey x snap →
    (∀ k : RegIdx,
      (s.key k = true ∧ (s.cfg.keyWaitTrigger = .edge → snap[k.val] = false)) →
      (∀ j : RegIdx, j < k → ¬ (s.key j = true ∧ (s.cfg.keyWaitTrigger = .edge → snap[j.val] = false))) →
      ∃ t, step s = .next t ∧ ChangesOnly (among [.reg x, .pc, .status, .render]) s t ∧ (t.reg x).toNat = k.val ∧
        t.pc.toNat = (s.pc.toNat + 2) % 65536 ∧ t.status = .running ∧ t.render = false) ∧
    ((∀ k : RegIdx, ¬ (s.key k = true ∧ (s.cfg.keyWaitTrigger = .edge → snap[k.val] = false))) →
      ∃ t, step s = .next t ∧ ChangesOnly (among [.status, .render]) s t ∧ t.status = .awaitingKey x s.keys ∧
        t.render = false)

/-- R184, R187 (the scenario of W6; decision D25 for the timers of a waiting core): while no key is pressed, a waiting core
keeps waiting at the same PC under every schedule of steps and ticks, however long, with every register as it was; only the
timers run on. -/
def Obligations.WaitingLastsWhileNoKeyIsPressed : Prop :=
  ∀ (s : State) (x : RegIdx) (snap : Keys) (ms : List Move), s.status = .awaitingKey x snap →
    (∀ k, s.key k = false) → (∀ m ∈ ms, pressesNothing m) →
    ∃ t, applyMoves ms s = .next t ∧ (∃ snap', t.status = .awaitingKey x snap') ∧
      t.dt.toNat = s.dt.toNat - tickCount ms ∧ t.st.toNat = s.st.toNat - tickCount ms ∧
      ChangesOnly (among [.status, .render, .delay, .sound]) s t

/-- R29, R180: no step and no tick changes the Key State; the configuration is changed by no move at all (00_scope R7). -/
def Obligations.OnlyTheHostWritesTheKeys : Prop :=
  ∀ (m : Move) (s t : State), applyMove m s = .next t → t.cfg = s.cfg ∧ ((∀ ks, m ≠ .keys ks) → t.keys = s.keys)

/-! ## Index register and memory (46_index_memory, 20_memory) -/

/-- R190 to R192 (decisions D14, D16): the three instructions that only set I; VF is no exception to the frame. -/
def Obligations.IndexIsSet : Prop :=
  ∀ (s : State) (x : RegIdx) (nnn : Addr),
    Completes (wordNNN 0xA nnn) (.ldI nnn) s (among [.index, .pc, .render])
      (fun t => t.index.toNat = nnn.toNat ∧ FallsThrough s t) ∧
    Completes (wordXNN 0xF x 0x1E) (.addIVx x) s (among [.index, .pc, .render])
      (fun t => t.index.toNat = (s.index.toNat + (s.reg x).toNat) % 65536 ∧ FallsThrough s t) ∧
    Completes (wordXNN 0xF x 0x29) (.ldFVx x) s (among [.index, .pc, .render])
      (fun t => t.index.toNat = s.cfg.fontBase.toNat + 5 * ((s.reg x).toNat % 16) ∧ FallsThrough s t)

/-- R193: the three decimal digits of Vx at I, I + 1 and I + 2, each address masked; I is not changed. -/
def Obligations.LdBVxStoresTheDecimalDigits : Prop :=
  ∀ (s : State) (x : RegIdx), CanonicalMemory s →
    Completes (wordXNN 0xF x 0x33) (.ldBVx x) s (fun p => among [.pc, .render] p ∨ bytesFrom s.index.toNat 3 p)
      (fun t => (t.memRead s.index.toNat).toNat = (s.reg x).toNat / 100 ∧
        (t.memRead (s.index.toNat + 1)).toNat = (s.reg x).toNat / 10 % 10 ∧
        (t.memRead (s.index.toNat + 2)).toNat = (s.reg x).toNat % 10 ∧ FallsThrough s t)

/-- R194 (parameter LOADSTORE_INCREMENTS_I of D15, left free): V0 to Vx at I on, each address masked; I moves only under the
parameter. -/
def Obligations.LdMemVxStoresTheRegisters : Prop :=
  ∀ (s : State) (x : RegIdx), CanonicalMemory s →
    Completes (wordXNN 0xF x 0x55) (.ldMemVx x) s
      (fun p => among [.index, .pc, .render] p ∨ bytesFrom s.index.toNat (x.val + 1) p)
      (fun t => (∀ r : RegIdx, r ≤ x → t.memRead (s.index.toNat + r.val) = s.reg r) ∧
        t.index.toNat = (if s.cfg.loadStoreIncrementsI = true then (s.index.toNat + x.val + 1) % 65536
          else s.index.toNat) ∧ FallsThrough s t)

/-- R195 (parameter LOADSTORE_INCREMENTS_I of D15, left free): V0 to Vx from the bytes at I on; memory is not changed. -/
def Obligations.LdVxMemLoadsTheRegisters : Prop :=
  ∀ (s : State) (x : RegIdx),
    Completes (wordXNN 0xF x 0x65) (.ldVxMem x) s
      (fun p => among [.index, .pc, .render] p ∨ ∃ r : RegIdx, r ≤ x ∧ p = .reg r)
      (fun t => (∀ r : RegIdx, r ≤ x → t.reg r = s.memRead (s.index.toNat + r.val)) ∧
        t.index.toNat = (if s.cfg.loadStoreIncrementsI = true then (s.index.toNat + x.val + 1) % 65536
          else s.index.toNat) ∧ FallsThrough s t)

/-- R56, R59: memory changes only in a step that ran FX33 or FX55. -/
def Obligations.OnlyTwoInstructionsWriteMemory : Prop :=
  ∀ (m : Move) (s t : State), applyMove m s = .next t → t.mem ≠ s.mem →
    m = .step ∧ s.status = .running ∧
      ∃ x, decode s.cfg.gkOpcodes s.fetchWord = .ok (.ldBVx x) ∨ decode s.cfg.gkOpcodes s.fetchWord = .ok (.ldMemVx x)

/-- R79 (decision D1): without the GK opcodes no move changes I. -/
def Obligations.IndexIsFrozenWithoutGkOpcodes : Prop :=
  ∀ (m : Move) (s t : State), s.cfg.gkOpcodes = .disabled → applyMove m s = .next t → t.index = s.index

/-- The canonical form is canonical: two memories in it that read alike at every address are equal lists (log entry 12). -/
def Obligations.EqualReadsEqualMemories : Prop :=
  ∀ (cfg : Config) (m m' : Memory), Memory.wf cfg m = true → Memory.wf cfg m' = true →
    (∀ a < 4096, Memory.read (backgroundByte cfg) m a = Memory.read (backgroundByte cfg) m' a) → m = m'

/-- The parts of the frames miss nothing: two canonical states that agree on every part are the same state. It rests on the
model's own canonical form (log entry 12), render latch (log entry 2) and draw counter (log entry 3). -/
def Obligations.PartsDetermineTheState : Prop :=
  ∀ s t : State, CanonicalMemory s → CanonicalMemory t → (∀ p : Part, p.Same s t) → t = s

/-! ## Whole runs (70_reset_and_hazards, 60_exceptions) -/

/-- R227 (decision D27): at rest, a step changes nothing but the render output, which is false, and the core stays at rest. -/
def Obligations.AtRestAStepChangesNothing : Prop :=
  ∀ s : State, s.atRest = true →
    ∃ t, step s = .next t ∧ ChangesOnly (among [.render]) s t ∧ t.render = false ∧ t.atRest = true

/-- R170, R172 (the scenario of W5), R232 (decisions D26, D27): at rest, whatever the host's schedule, each timer has gone
down by the number of ticks in it and by nothing else, and never below 0. -/
def Obligations.TimersFollowTheTicksOfAnySchedule : Prop :=
  ∀ (s : State) (ms : List Move), s.atRest = true →
    ∃ t, applyMoves ms s = .next t ∧ t.dt.toNat = s.dt.toNat - tickCount ms ∧
      t.st.toNat = s.st.toNat - tickCount ms ∧ t.pc = s.pc ∧ t.atRest = true

/-- R31, R107, R209 (decision D6): a faulted core keeps its record and its state under every schedule; only the timers run on
(R170, decision D25) and only the host's keys change. -/
def Obligations.FaultedIsTerminal : Prop :=
  ∀ (s : State) (r : FaultRecord) (ms : List Move), s.status = .faulted r →
    ∃ t, applyMoves ms s = .next t ∧ t.dt.toNat = s.dt.toNat - tickCount ms ∧ t.st.toNat = s.st.toNat - tickCount ms ∧
      ChangesOnly (fun p => among [.delay, .sound, .render] p ∨ ∃ k, p = .key k) s t

/-- The invariant at reset, for every configuration; its clause on memory is the model's own canonical form (log entry 12). -/
def Obligations.ResetMeetsTheInvariant : Prop := ∀ cfg : Config, CoreInvariant (State.resetWith cfg)

/-- Every step keeps the invariant: memory stays canonical, a waiting core stands at the FX0A that waits (R183, R184), and a
fault record tells the kind, word, PC and SP of the state it is in, with the cause the spec gives that kind (R200 to R206;
decisions D4, D5, D9, D11, D13). The clause on memory is the model's own canonical form (log entry 12). -/
def Obligations.EveryStepKeepsTheInvariant : Prop :=
  ∀ s t : State, CoreInvariant s → step s = .next t → CoreInvariant t

/-- From any load, under any schedule of steps, ticks and key writes (R232), the run goes on and the invariant holds at its
end: whenever the core reports a fault, the report is true (decisions as for
EveryStepKeepsTheInvariant, and D26). The clause on memory is the model's own canonical form (log entry 12). -/
def Obligations.EveryScheduleOfALoadedCoreMeetsTheInvariant : Prop :=
  ∀ (cfg : Config) (rom : List Byte) (s : State) (ms : List Move), load cfg rom = .ok s →
    ∃ t, applyMoves ms s = .next t ∧ CoreInvariant t ∧ t.cfg = cfg
end

