-- ==== Sys2Proof/Laws/Decode.lean ====
section
/-! SUPPORT. The fields of a word built by format (30_encoding R71, R72), the word rebuilt from its fields, and the bytes of a
word: each as plain arithmetic on the numbers involved. -/

namespace Sys2Proof

theorem append_toNat {a b : Nat} (x : BitVec a) (y : BitVec b) : (x ++ y).toNat = x.toNat * 2 ^ b + y.toNat := by
  rw [BitVec.toNat_append, ← Nat.shiftLeft_add_eq_or_of_lt y.isLt, Nat.shiftLeft_eq]

@[simp] theorem regBits_toNat (r : RegIdx) : (regBits r).toNat = r.val := by
  simp [regBits]

/-! ### the fields as numbers -/

theorem opField_toNat (w : Word) : (opField w).toNat = w.toNat / 4096 % 16 := by
  simp [opField, BitVec.extractLsb'_toNat, Nat.shiftRight_eq_div_pow]

theorem xField_val (w : Word) : (xField w).val = w.toNat / 256 % 16 := by
  simp [xField, BitVec.extractLsb'_toNat, Nat.shiftRight_eq_div_pow]

theorem yField_val (w : Word) : (yField w).val = w.toNat / 16 % 16 := by
  simp [yField, BitVec.extractLsb'_toNat, Nat.shiftRight_eq_div_pow]

theorem nField_toNat (w : Word) : (nField w).toNat = w.toNat % 16 := by
  simp [nField, BitVec.extractLsb'_toNat]

theorem nnField_toNat (w : Word) : (nnField w).toNat = w.toNat % 256 := by
  simp [nnField, BitVec.extractLsb'_toNat]

theorem nnnField_toNat (w : Word) : (nnnField w).toNat = w.toNat % 4096 := by
  simp [nnnField, BitVec.extractLsb'_toNat]

/-! ### the formats as numbers -/

theorem wordNNN_toNat (op : BitVec 4) (nnn : Addr) : (wordNNN op nnn).toNat = op.toNat * 4096 + nnn.toNat :=
  append_toNat op nnn

theorem wordXNN_toNat (op : BitVec 4) (x : RegIdx) (nn : Byte) :
    (wordXNN op x nn).toNat = op.toNat * 4096 + (x.val * 256 + nn.toNat) := by
  have h1 : (regBits x ++ nn).toNat = (regBits x).toNat * 256 + nn.toNat := append_toNat _ _
  have h2 : (wordXNN op x nn).toNat = op.toNat * 4096 + (regBits x ++ nn).toNat := append_toNat op (regBits x ++ nn)
  rw [h2, h1, regBits_toNat]

theorem wordXYN_toNat (op : BitVec 4) (x y : RegIdx) (n : BitVec 4) :
    (wordXYN op x y n).toNat = op.toNat * 4096 + (x.val * 256 + (y.val * 16 + n.toNat)) := by
  have h1 : (regBits y ++ n).toNat = (regBits y).toNat * 16 + n.toNat := append_toNat _ _
  have h2 : (wordXYN op x y n).toNat = op.toNat * 4096 + (x.val * 256 + (regBits y ++ n).toNat) :=
    wordXNN_toNat op x (regBits y ++ n)
  rw [h2, h1, regBits_toNat]

/-! ### the fields of a format -/

@[simp] theorem opField_wordNNN (op : BitVec 4) (nnn : Addr) : opField (wordNNN op nnn) = op := by
  apply BitVec.eq_of_toNat_eq; rw [opField_toNat, wordNNN_toNat]; omega

@[simp] theorem nnnField_wordNNN (op : BitVec 4) (nnn : Addr) : nnnField (wordNNN op nnn) = nnn := by
  apply BitVec.eq_of_toNat_eq; rw [nnnField_toNat, wordNNN_toNat]; omega

@[simp] theorem opField_wordXNN (op : BitVec 4) (x : RegIdx) (nn : Byte) : opField (wordXNN op x nn) = op := by
  apply BitVec.eq_of_toNat_eq; rw [opField_toNat, wordXNN_toNat]; omega

@[simp] theorem xField_wordXNN (op : BitVec 4) (x : RegIdx) (nn : Byte) : xField (wordXNN op x nn) = x := by
  apply Fin.ext; rw [xField_val, wordXNN_toNat]; omega

@[simp] theorem nnField_wordXNN (op : BitVec 4) (x : RegIdx) (nn : Byte) : nnField (wordXNN op x nn) = nn := by
  apply BitVec.eq_of_toNat_eq; rw [nnField_toNat, wordXNN_toNat]; omega

@[simp] theorem opField_wordXYN (op : BitVec 4) (x y : RegIdx) (n : BitVec 4) : opField (wordXYN op x y n) = op := by
  apply BitVec.eq_of_toNat_eq; rw [opField_toNat, wordXYN_toNat]; omega

@[simp] theorem xField_wordXYN (op : BitVec 4) (x y : RegIdx) (n : BitVec 4) : xField (wordXYN op x y n) = x := by
  apply Fin.ext; rw [xField_val, wordXYN_toNat]; omega

@[simp] theorem yField_wordXYN (op : BitVec 4) (x y : RegIdx) (n : BitVec 4) : yField (wordXYN op x y n) = y := by
  apply Fin.ext; rw [yField_val, wordXYN_toNat]; omega

@[simp] theorem nField_wordXYN (op : BitVec 4) (x y : RegIdx) (n : BitVec 4) : nField (wordXYN op x y n) = n := by
  apply BitVec.eq_of_toNat_eq; rw [nField_toNat, wordXYN_toNat]; omega

/-! ### a word from its fields -/

theorem wordNNN_fields (w : Word) : wordNNN (opField w) (nnnField w) = w := by
  apply BitVec.eq_of_toNat_eq; rw [wordNNN_toNat, opField_toNat, nnnField_toNat]; omega

theorem wordXNN_fields (w : Word) : wordXNN (opField w) (xField w) (nnField w) = w := by
  apply BitVec.eq_of_toNat_eq; rw [wordXNN_toNat, opField_toNat, xField_val, nnField_toNat]; omega

theorem wordXYN_fields (w : Word) : wordXYN (opField w) (xField w) (yField w) (nField w) = w := by
  apply BitVec.eq_of_toNat_eq; rw [wordXYN_toNat, opField_toNat, xField_val, yField_val, nField_toNat]; omega

/-! ### the bytes of a word -/

/-- The word two bytes make, the first the high one (R52, R102). -/
theorem wordOfBytes_toNat (hi lo : Byte) : (wordOfBytes hi lo).toNat = hi.toNat * 256 + lo.toNat := append_toNat hi lo

theorem highByte_toNat (w : Word) : (highByte w).toNat = w.toNat / 256 % 256 := by
  simp [highByte, BitVec.extractLsb'_toNat, Nat.shiftRight_eq_div_pow]

theorem lowByte_toNat (w : Word) : (lowByte w).toNat = w.toNat % 256 := by
  simp [lowByte, BitVec.extractLsb'_toNat]

@[simp] theorem wordOfBytes_bytes (w : Word) : wordOfBytes (highByte w) (lowByte w) = w := by
  apply BitVec.eq_of_toNat_eq; rw [wordOfBytes_toNat, highByte_toNat, lowByte_toNat]; omega

end Sys2Proof
end

