-- ==== Sys2Proof/Laws/State.lean ====
section
/-! SUPPORT. One lemma per field per update of the state, true by rfl, so that no proof unfolds a record update; and the
accessors (a register, a stack slot, a key, a byte) under the updates that leave them alone. -/

namespace Sys2Proof.Machine


/-! ### setReg -/

@[simp] theorem State.setReg_v (s : State) (r : RegIdx) (b : Byte) : (s.setReg r b).v = s.v.set r.val b := rfl
@[simp] theorem State.setReg_index (s : State) (r : RegIdx) (b : Byte) : (s.setReg r b).index = s.index := rfl
@[simp] theorem State.setReg_pc (s : State) (r : RegIdx) (b : Byte) : (s.setReg r b).pc = s.pc := rfl
@[simp] theorem State.setReg_sp (s : State) (r : RegIdx) (b : Byte) : (s.setReg r b).sp = s.sp := rfl
@[simp] theorem State.setReg_stack (s : State) (r : RegIdx) (b : Byte) : (s.setReg r b).stack = s.stack := rfl
@[simp] theorem State.setReg_dt (s : State) (r : RegIdx) (b : Byte) : (s.setReg r b).dt = s.dt := rfl
@[simp] theorem State.setReg_st (s : State) (r : RegIdx) (b : Byte) : (s.setReg r b).st = s.st := rfl
@[simp] theorem State.setReg_disp (s : State) (r : RegIdx) (b : Byte) : (s.setReg r b).disp = s.disp := rfl
@[simp] theorem State.setReg_keys (s : State) (r : RegIdx) (b : Byte) : (s.setReg r b).keys = s.keys := rfl
@[simp] theorem State.setReg_mem (s : State) (r : RegIdx) (b : Byte) : (s.setReg r b).mem = s.mem := rfl
@[simp] theorem State.setReg_status (s : State) (r : RegIdx) (b : Byte) : (s.setReg r b).status = s.status := rfl
@[simp] theorem State.setReg_cfg (s : State) (r : RegIdx) (b : Byte) : (s.setReg r b).cfg = s.cfg := rfl
@[simp] theorem State.setReg_render (s : State) (r : RegIdx) (b : Byte) : (s.setReg r b).render = s.render := rfl
@[simp] theorem State.setReg_draws (s : State) (r : RegIdx) (b : Byte) : (s.setReg r b).draws = s.draws := rfl
@[simp] theorem State.setReg_slot (s : State) (r : RegIdx) (b : Byte) (j : Fin 16) :
    (s.setReg r b).slot j = s.slot j := rfl
@[simp] theorem State.setReg_key (s : State) (r : RegIdx) (b : Byte) (k : RegIdx) :
    (s.setReg r b).key k = s.key k := rfl
@[simp] theorem State.setReg_memRead (s : State) (r : RegIdx) (b : Byte) (a : Nat) :
    (s.setReg r b).memRead a = s.memRead a := rfl
@[simp] theorem State.setReg_fetchWord (s : State) (r : RegIdx) (b : Byte) :
    (s.setReg r b).fetchWord = s.fetchWord := rfl

/-! ### setIndex -/

@[simp] theorem State.setIndex_v (s : State) (w : Word) : (s.setIndex w).v = s.v := rfl
@[simp] theorem State.setIndex_index (s : State) (w : Word) : (s.setIndex w).index = w := rfl
@[simp] theorem State.setIndex_pc (s : State) (w : Word) : (s.setIndex w).pc = s.pc := rfl
@[simp] theorem State.setIndex_sp (s : State) (w : Word) : (s.setIndex w).sp = s.sp := rfl
@[simp] theorem State.setIndex_stack (s : State) (w : Word) : (s.setIndex w).stack = s.stack := rfl
@[simp] theorem State.setIndex_dt (s : State) (w : Word) : (s.setIndex w).dt = s.dt := rfl
@[simp] theorem State.setIndex_st (s : State) (w : Word) : (s.setIndex w).st = s.st := rfl
@[simp] theorem State.setIndex_disp (s : State) (w : Word) : (s.setIndex w).disp = s.disp := rfl
@[simp] theorem State.setIndex_keys (s : State) (w : Word) : (s.setIndex w).keys = s.keys := rfl
@[simp] theorem State.setIndex_mem (s : State) (w : Word) : (s.setIndex w).mem = s.mem := rfl
@[simp] theorem State.setIndex_status (s : State) (w : Word) : (s.setIndex w).status = s.status := rfl
@[simp] theorem State.setIndex_cfg (s : State) (w : Word) : (s.setIndex w).cfg = s.cfg := rfl
@[simp] theorem State.setIndex_render (s : State) (w : Word) : (s.setIndex w).render = s.render := rfl
@[simp] theorem State.setIndex_draws (s : State) (w : Word) : (s.setIndex w).draws = s.draws := rfl
@[simp] theorem State.setIndex_reg (s : State) (w : Word) (r : RegIdx) : (s.setIndex w).reg r = s.reg r := rfl
@[simp] theorem State.setIndex_slot (s : State) (w : Word) (j : Fin 16) : (s.setIndex w).slot j = s.slot j := rfl
@[simp] theorem State.setIndex_key (s : State) (w : Word) (k : RegIdx) : (s.setIndex w).key k = s.key k := rfl
@[simp] theorem State.setIndex_memRead (s : State) (w : Word) (a : Nat) : (s.setIndex w).memRead a = s.memRead a := rfl
@[simp] theorem State.setIndex_fetchWord (s : State) (w : Word) : (s.setIndex w).fetchWord = s.fetchWord := rfl

/-! ### setPc -/

@[simp] theorem State.setPc_v (s : State) (w : Word) : (s.setPc w).v = s.v := rfl
@[simp] theorem State.setPc_index (s : State) (w : Word) : (s.setPc w).index = s.index := rfl
@[simp] theorem State.setPc_pc (s : State) (w : Word) : (s.setPc w).pc = w := rfl
@[simp] theorem State.setPc_sp (s : State) (w : Word) : (s.setPc w).sp = s.sp := rfl
@[simp] theorem State.setPc_stack (s : State) (w : Word) : (s.setPc w).stack = s.stack := rfl
@[simp] theorem State.setPc_dt (s : State) (w : Word) : (s.setPc w).dt = s.dt := rfl
@[simp] theorem State.setPc_st (s : State) (w : Word) : (s.setPc w).st = s.st := rfl
@[simp] theorem State.setPc_disp (s : State) (w : Word) : (s.setPc w).disp = s.disp := rfl
@[simp] theorem State.setPc_keys (s : State) (w : Word) : (s.setPc w).keys = s.keys := rfl
@[simp] theorem State.setPc_mem (s : State) (w : Word) : (s.setPc w).mem = s.mem := rfl
@[simp] theorem State.setPc_status (s : State) (w : Word) : (s.setPc w).status = s.status := rfl
@[simp] theorem State.setPc_cfg (s : State) (w : Word) : (s.setPc w).cfg = s.cfg := rfl
@[simp] theorem State.setPc_render (s : State) (w : Word) : (s.setPc w).render = s.render := rfl
@[simp] theorem State.setPc_draws (s : State) (w : Word) : (s.setPc w).draws = s.draws := rfl
@[simp] theorem State.setPc_reg (s : State) (w : Word) (r : RegIdx) : (s.setPc w).reg r = s.reg r := rfl
@[simp] theorem State.setPc_slot (s : State) (w : Word) (j : Fin 16) : (s.setPc w).slot j = s.slot j := rfl
@[simp] theorem State.setPc_key (s : State) (w : Word) (k : RegIdx) : (s.setPc w).key k = s.key k := rfl
@[simp] theorem State.setPc_memRead (s : State) (w : Word) (a : Nat) : (s.setPc w).memRead a = s.memRead a := rfl

/-! ### setDelay -/

@[simp] theorem State.setDelay_v (s : State) (b : Byte) : (s.setDelay b).v = s.v := rfl
@[simp] theorem State.setDelay_index (s : State) (b : Byte) : (s.setDelay b).index = s.index := rfl
@[simp] theorem State.setDelay_pc (s : State) (b : Byte) : (s.setDelay b).pc = s.pc := rfl
@[simp] theorem State.setDelay_sp (s : State) (b : Byte) : (s.setDelay b).sp = s.sp := rfl
@[simp] theorem State.setDelay_stack (s : State) (b : Byte) : (s.setDelay b).stack = s.stack := rfl
@[simp] theorem State.setDelay_dt (s : State) (b : Byte) : (s.setDelay b).dt = b := rfl
@[simp] theorem State.setDelay_st (s : State) (b : Byte) : (s.setDelay b).st = s.st := rfl
@[simp] theorem State.setDelay_disp (s : State) (b : Byte) : (s.setDelay b).disp = s.disp := rfl
@[simp] theorem State.setDelay_keys (s : State) (b : Byte) : (s.setDelay b).keys = s.keys := rfl
@[simp] theorem State.setDelay_mem (s : State) (b : Byte) : (s.setDelay b).mem = s.mem := rfl
@[simp] theorem State.setDelay_status (s : State) (b : Byte) : (s.setDelay b).status = s.status := rfl
@[simp] theorem State.setDelay_cfg (s : State) (b : Byte) : (s.setDelay b).cfg = s.cfg := rfl
@[simp] theorem State.setDelay_render (s : State) (b : Byte) : (s.setDelay b).render = s.render := rfl
@[simp] theorem State.setDelay_draws (s : State) (b : Byte) : (s.setDelay b).draws = s.draws := rfl
@[simp] theorem State.setDelay_reg (s : State) (b : Byte) (r : RegIdx) : (s.setDelay b).reg r = s.reg r := rfl
@[simp] theorem State.setDelay_slot (s : State) (b : Byte) (j : Fin 16) : (s.setDelay b).slot j = s.slot j := rfl
@[simp] theorem State.setDelay_key (s : State) (b : Byte) (k : RegIdx) : (s.setDelay b).key k = s.key k := rfl
@[simp] theorem State.setDelay_memRead (s : State) (b : Byte) (a : Nat) : (s.setDelay b).memRead a = s.memRead a := rfl
@[simp] theorem State.setDelay_fetchWord (s : State) (b : Byte) : (s.setDelay b).fetchWord = s.fetchWord := rfl

/-! ### setSound -/

@[simp] theorem State.setSound_v (s : State) (b : Byte) : (s.setSound b).v = s.v := rfl
@[simp] theorem State.setSound_index (s : State) (b : Byte) : (s.setSound b).index = s.index := rfl
@[simp] theorem State.setSound_pc (s : State) (b : Byte) : (s.setSound b).pc = s.pc := rfl
@[simp] theorem State.setSound_sp (s : State) (b : Byte) : (s.setSound b).sp = s.sp := rfl
@[simp] theorem State.setSound_stack (s : State) (b : Byte) : (s.setSound b).stack = s.stack := rfl
@[simp] theorem State.setSound_dt (s : State) (b : Byte) : (s.setSound b).dt = s.dt := rfl
@[simp] theorem State.setSound_st (s : State) (b : Byte) : (s.setSound b).st = b := rfl
@[simp] theorem State.setSound_disp (s : State) (b : Byte) : (s.setSound b).disp = s.disp := rfl
@[simp] theorem State.setSound_keys (s : State) (b : Byte) : (s.setSound b).keys = s.keys := rfl
@[simp] theorem State.setSound_mem (s : State) (b : Byte) : (s.setSound b).mem = s.mem := rfl
@[simp] theorem State.setSound_status (s : State) (b : Byte) : (s.setSound b).status = s.status := rfl
@[simp] theorem State.setSound_cfg (s : State) (b : Byte) : (s.setSound b).cfg = s.cfg := rfl
@[simp] theorem State.setSound_render (s : State) (b : Byte) : (s.setSound b).render = s.render := rfl
@[simp] theorem State.setSound_draws (s : State) (b : Byte) : (s.setSound b).draws = s.draws := rfl
@[simp] theorem State.setSound_reg (s : State) (b : Byte) (r : RegIdx) : (s.setSound b).reg r = s.reg r := rfl
@[simp] theorem State.setSound_slot (s : State) (b : Byte) (j : Fin 16) : (s.setSound b).slot j = s.slot j := rfl
@[simp] theorem State.setSound_key (s : State) (b : Byte) (k : RegIdx) : (s.setSound b).key k = s.key k := rfl
@[simp] theorem State.setSound_memRead (s : State) (b : Byte) (a : Nat) : (s.setSound b).memRead a = s.memRead a := rfl
@[simp] theorem State.setSound_fetchWord (s : State) (b : Byte) : (s.setSound b).fetchWord = s.fetchWord := rfl

/-! ### setStatus -/

@[simp] theorem State.setStatus_v (s : State) (x : Status) : (s.setStatus x).v = s.v := rfl
@[simp] theorem State.setStatus_index (s : State) (x : Status) : (s.setStatus x).index = s.index := rfl
@[simp] theorem State.setStatus_pc (s : State) (x : Status) : (s.setStatus x).pc = s.pc := rfl
@[simp] theorem State.setStatus_sp (s : State) (x : Status) : (s.setStatus x).sp = s.sp := rfl
@[simp] theorem State.setStatus_stack (s : State) (x : Status) : (s.setStatus x).stack = s.stack := rfl
@[simp] theorem State.setStatus_dt (s : State) (x : Status) : (s.setStatus x).dt = s.dt := rfl
@[simp] theorem State.setStatus_st (s : State) (x : Status) : (s.setStatus x).st = s.st := rfl
@[simp] theorem State.setStatus_disp (s : State) (x : Status) : (s.setStatus x).disp = s.disp := rfl
@[simp] theorem State.setStatus_keys (s : State) (x : Status) : (s.setStatus x).keys = s.keys := rfl
@[simp] theorem State.setStatus_mem (s : State) (x : Status) : (s.setStatus x).mem = s.mem := rfl
@[simp] theorem State.setStatus_status (s : State) (x : Status) : (s.setStatus x).status = x := rfl
@[simp] theorem State.setStatus_cfg (s : State) (x : Status) : (s.setStatus x).cfg = s.cfg := rfl
@[simp] theorem State.setStatus_render (s : State) (x : Status) : (s.setStatus x).render = s.render := rfl
@[simp] theorem State.setStatus_draws (s : State) (x : Status) : (s.setStatus x).draws = s.draws := rfl
@[simp] theorem State.setStatus_reg (s : State) (x : Status) (r : RegIdx) : (s.setStatus x).reg r = s.reg r := rfl
@[simp] theorem State.setStatus_slot (s : State) (x : Status) (j : Fin 16) : (s.setStatus x).slot j = s.slot j := rfl
@[simp] theorem State.setStatus_key (s : State) (x : Status) (k : RegIdx) : (s.setStatus x).key k = s.key k := rfl
@[simp] theorem State.setStatus_memRead (s : State) (x : Status) (a : Nat) :
    (s.setStatus x).memRead a = s.memRead a := rfl
@[simp] theorem State.setStatus_fetchWord (s : State) (x : Status) : (s.setStatus x).fetchWord = s.fetchWord := rfl

/-! ### setRender -/

@[simp] theorem State.setRender_v (s : State) (b : Bool) : (s.setRender b).v = s.v := rfl
@[simp] theorem State.setRender_index (s : State) (b : Bool) : (s.setRender b).index = s.index := rfl
@[simp] theorem State.setRender_pc (s : State) (b : Bool) : (s.setRender b).pc = s.pc := rfl
@[simp] theorem State.setRender_sp (s : State) (b : Bool) : (s.setRender b).sp = s.sp := rfl
@[simp] theorem State.setRender_stack (s : State) (b : Bool) : (s.setRender b).stack = s.stack := rfl
@[simp] theorem State.setRender_dt (s : State) (b : Bool) : (s.setRender b).dt = s.dt := rfl
@[simp] theorem State.setRender_st (s : State) (b : Bool) : (s.setRender b).st = s.st := rfl
@[simp] theorem State.setRender_disp (s : State) (b : Bool) : (s.setRender b).disp = s.disp := rfl
@[simp] theorem State.setRender_keys (s : State) (b : Bool) : (s.setRender b).keys = s.keys := rfl
@[simp] theorem State.setRender_mem (s : State) (b : Bool) : (s.setRender b).mem = s.mem := rfl
@[simp] theorem State.setRender_status (s : State) (b : Bool) : (s.setRender b).status = s.status := rfl
@[simp] theorem State.setRender_cfg (s : State) (b : Bool) : (s.setRender b).cfg = s.cfg := rfl
@[simp] theorem State.setRender_render (s : State) (b : Bool) : (s.setRender b).render = b := rfl
@[simp] theorem State.setRender_draws (s : State) (b : Bool) : (s.setRender b).draws = s.draws := rfl
@[simp] theorem State.setRender_reg (s : State) (b : Bool) (r : RegIdx) : (s.setRender b).reg r = s.reg r := rfl
@[simp] theorem State.setRender_slot (s : State) (b : Bool) (j : Fin 16) : (s.setRender b).slot j = s.slot j := rfl
@[simp] theorem State.setRender_key (s : State) (b : Bool) (k : RegIdx) : (s.setRender b).key k = s.key k := rfl
@[simp] theorem State.setRender_memRead (s : State) (b : Bool) (a : Nat) :
    (s.setRender b).memRead a = s.memRead a := rfl
@[simp] theorem State.setRender_fetchWord (s : State) (b : Bool) : (s.setRender b).fetchWord = s.fetchWord := rfl

/-! ### setDisp -/

@[simp] theorem State.setDisp_v (s : State) (d : Display) : (s.setDisp d).v = s.v := rfl
@[simp] theorem State.setDisp_index (s : State) (d : Display) : (s.setDisp d).index = s.index := rfl
@[simp] theorem State.setDisp_pc (s : State) (d : Display) : (s.setDisp d).pc = s.pc := rfl
@[simp] theorem State.setDisp_sp (s : State) (d : Display) : (s.setDisp d).sp = s.sp := rfl
@[simp] theorem State.setDisp_stack (s : State) (d : Display) : (s.setDisp d).stack = s.stack := rfl
@[simp] theorem State.setDisp_dt (s : State) (d : Display) : (s.setDisp d).dt = s.dt := rfl
@[simp] theorem State.setDisp_st (s : State) (d : Display) : (s.setDisp d).st = s.st := rfl
@[simp] theorem State.setDisp_disp (s : State) (d : Display) : (s.setDisp d).disp = d := rfl
@[simp] theorem State.setDisp_keys (s : State) (d : Display) : (s.setDisp d).keys = s.keys := rfl
@[simp] theorem State.setDisp_mem (s : State) (d : Display) : (s.setDisp d).mem = s.mem := rfl
@[simp] theorem State.setDisp_status (s : State) (d : Display) : (s.setDisp d).status = s.status := rfl
@[simp] theorem State.setDisp_cfg (s : State) (d : Display) : (s.setDisp d).cfg = s.cfg := rfl
@[simp] theorem State.setDisp_render (s : State) (d : Display) : (s.setDisp d).render = s.render := rfl
@[simp] theorem State.setDisp_draws (s : State) (d : Display) : (s.setDisp d).draws = s.draws := rfl
@[simp] theorem State.setDisp_reg (s : State) (d : Display) (r : RegIdx) : (s.setDisp d).reg r = s.reg r := rfl
@[simp] theorem State.setDisp_slot (s : State) (d : Display) (j : Fin 16) : (s.setDisp d).slot j = s.slot j := rfl
@[simp] theorem State.setDisp_key (s : State) (d : Display) (k : RegIdx) : (s.setDisp d).key k = s.key k := rfl
@[simp] theorem State.setDisp_memRead (s : State) (d : Display) (a : Nat) : (s.setDisp d).memRead a = s.memRead a := rfl
@[simp] theorem State.setDisp_fetchWord (s : State) (d : Display) : (s.setDisp d).fetchWord = s.fetchWord := rfl

/-! ### drawn -/

@[simp] theorem State.drawn_v (s : State) : s.drawn.v = s.v := rfl
@[simp] theorem State.drawn_index (s : State) : s.drawn.index = s.index := rfl
@[simp] theorem State.drawn_pc (s : State) : s.drawn.pc = s.pc := rfl
@[simp] theorem State.drawn_sp (s : State) : s.drawn.sp = s.sp := rfl
@[simp] theorem State.drawn_stack (s : State) : s.drawn.stack = s.stack := rfl
@[simp] theorem State.drawn_dt (s : State) : s.drawn.dt = s.dt := rfl
@[simp] theorem State.drawn_st (s : State) : s.drawn.st = s.st := rfl
@[simp] theorem State.drawn_disp (s : State) : s.drawn.disp = s.disp := rfl
@[simp] theorem State.drawn_keys (s : State) : s.drawn.keys = s.keys := rfl
@[simp] theorem State.drawn_mem (s : State) : s.drawn.mem = s.mem := rfl
@[simp] theorem State.drawn_status (s : State) : s.drawn.status = s.status := rfl
@[simp] theorem State.drawn_cfg (s : State) : s.drawn.cfg = s.cfg := rfl
@[simp] theorem State.drawn_render (s : State) : s.drawn.render = s.render := rfl
@[simp] theorem State.drawn_draws (s : State) : s.drawn.draws = s.draws + 1 := rfl
@[simp] theorem State.drawn_reg (s : State) (r : RegIdx) : s.drawn.reg r = s.reg r := rfl
@[simp] theorem State.drawn_slot (s : State) (j : Fin 16) : s.drawn.slot j = s.slot j := rfl
@[simp] theorem State.drawn_key (s : State) (k : RegIdx) : s.drawn.key k = s.key k := rfl
@[simp] theorem State.drawn_memRead (s : State) (a : Nat) : s.drawn.memRead a = s.memRead a := rfl
@[simp] theorem State.drawn_fetchWord (s : State) : s.drawn.fetchWord = s.fetchWord := rfl

/-! ### storeBytes -/

@[simp] theorem State.storeBytes_v (s : State) (a : Nat) (bs : List Byte) : (s.storeBytes a bs).v = s.v := rfl
@[simp] theorem State.storeBytes_index (s : State) (a : Nat) (bs : List Byte) :
    (s.storeBytes a bs).index = s.index := rfl
@[simp] theorem State.storeBytes_pc (s : State) (a : Nat) (bs : List Byte) : (s.storeBytes a bs).pc = s.pc := rfl
@[simp] theorem State.storeBytes_sp (s : State) (a : Nat) (bs : List Byte) : (s.storeBytes a bs).sp = s.sp := rfl
@[simp] theorem State.storeBytes_stack (s : State) (a : Nat) (bs : List Byte) :
    (s.storeBytes a bs).stack = s.stack := rfl
@[simp] theorem State.storeBytes_dt (s : State) (a : Nat) (bs : List Byte) : (s.storeBytes a bs).dt = s.dt := rfl
@[simp] theorem State.storeBytes_st (s : State) (a : Nat) (bs : List Byte) : (s.storeBytes a bs).st = s.st := rfl
@[simp] theorem State.storeBytes_disp (s : State) (a : Nat) (bs : List Byte) : (s.storeBytes a bs).disp = s.disp := rfl
@[simp] theorem State.storeBytes_keys (s : State) (a : Nat) (bs : List Byte) : (s.storeBytes a bs).keys = s.keys := rfl
@[simp] theorem State.storeBytes_mem (s : State) (a : Nat) (bs : List Byte) :
    (s.storeBytes a bs).mem = Memory.writeBytes (backgroundByte s.cfg) s.mem a bs := rfl
@[simp] theorem State.storeBytes_status (s : State) (a : Nat) (bs : List Byte) :
    (s.storeBytes a bs).status = s.status := rfl
@[simp] theorem State.storeBytes_cfg (s : State) (a : Nat) (bs : List Byte) : (s.storeBytes a bs).cfg = s.cfg := rfl
@[simp] theorem State.storeBytes_render (s : State) (a : Nat) (bs : List Byte) :
    (s.storeBytes a bs).render = s.render := rfl
@[simp] theorem State.storeBytes_draws (s : State) (a : Nat) (bs : List Byte) :
    (s.storeBytes a bs).draws = s.draws := rfl
@[simp] theorem State.storeBytes_reg (s : State) (a : Nat) (bs : List Byte) (r : RegIdx) :
    (s.storeBytes a bs).reg r = s.reg r := rfl
@[simp] theorem State.storeBytes_slot (s : State) (a : Nat) (bs : List Byte) (j : Fin 16) :
    (s.storeBytes a bs).slot j = s.slot j := rfl
@[simp] theorem State.storeBytes_key (s : State) (a : Nat) (bs : List Byte) (k : RegIdx) :
    (s.storeBytes a bs).key k = s.key k := rfl

/-! ### push -/

@[simp] theorem State.push_v (s : State) (w : Word) (h : s.sp.val < 16) : (s.push w h).v = s.v := rfl
@[simp] theorem State.push_index (s : State) (w : Word) (h : s.sp.val < 16) : (s.push w h).index = s.index := rfl
@[simp] theorem State.push_pc (s : State) (w : Word) (h : s.sp.val < 16) : (s.push w h).pc = s.pc := rfl
@[simp] theorem State.push_sp (s : State) (w : Word) (h : s.sp.val < 16) :
    (s.push w h).sp = ⟨s.sp.val + 1, by omega⟩ := rfl
@[simp] theorem State.push_stack (s : State) (w : Word) (h : s.sp.val < 16) :
    (s.push w h).stack = s.stack.set s.sp.val w := rfl
@[simp] theorem State.push_dt (s : State) (w : Word) (h : s.sp.val < 16) : (s.push w h).dt = s.dt := rfl
@[simp] theorem State.push_st (s : State) (w : Word) (h : s.sp.val < 16) : (s.push w h).st = s.st := rfl
@[simp] theorem State.push_disp (s : State) (w : Word) (h : s.sp.val < 16) : (s.push w h).disp = s.disp := rfl
@[simp] theorem State.push_keys (s : State) (w : Word) (h : s.sp.val < 16) : (s.push w h).keys = s.keys := rfl
@[simp] theorem State.push_mem (s : State) (w : Word) (h : s.sp.val < 16) : (s.push w h).mem = s.mem := rfl
@[simp] theorem State.push_status (s : State) (w : Word) (h : s.sp.val < 16) : (s.push w h).status = s.status := rfl
@[simp] theorem State.push_cfg (s : State) (w : Word) (h : s.sp.val < 16) : (s.push w h).cfg = s.cfg := rfl
@[simp] theorem State.push_render (s : State) (w : Word) (h : s.sp.val < 16) : (s.push w h).render = s.render := rfl
@[simp] theorem State.push_draws (s : State) (w : Word) (h : s.sp.val < 16) : (s.push w h).draws = s.draws := rfl
@[simp] theorem State.push_reg (s : State) (w : Word) (h : s.sp.val < 16) (r : RegIdx) :
    (s.push w h).reg r = s.reg r := rfl
@[simp] theorem State.push_key (s : State) (w : Word) (h : s.sp.val < 16) (k : RegIdx) :
    (s.push w h).key k = s.key k := rfl
@[simp] theorem State.push_memRead (s : State) (w : Word) (h : s.sp.val < 16) (a : Nat) :
    (s.push w h).memRead a = s.memRead a := rfl
@[simp] theorem State.push_fetchWord (s : State) (w : Word) (h : s.sp.val < 16) :
    (s.push w h).fetchWord = s.fetchWord := rfl

/-! ### advance -/

@[simp] theorem State.advance_v (s : State) : s.advance.v = s.v := rfl
@[simp] theorem State.advance_index (s : State) : s.advance.index = s.index := rfl
@[simp] theorem State.advance_pc (s : State) : s.advance.pc = s.pc + 2 := rfl
@[simp] theorem State.advance_sp (s : State) : s.advance.sp = s.sp := rfl
@[simp] theorem State.advance_stack (s : State) : s.advance.stack = s.stack := rfl
@[simp] theorem State.advance_dt (s : State) : s.advance.dt = s.dt := rfl
@[simp] theorem State.advance_st (s : State) : s.advance.st = s.st := rfl
@[simp] theorem State.advance_disp (s : State) : s.advance.disp = s.disp := rfl
@[simp] theorem State.advance_keys (s : State) : s.advance.keys = s.keys := rfl
@[simp] theorem State.advance_mem (s : State) : s.advance.mem = s.mem := rfl
@[simp] theorem State.advance_status (s : State) : s.advance.status = s.status := rfl
@[simp] theorem State.advance_cfg (s : State) : s.advance.cfg = s.cfg := rfl
@[simp] theorem State.advance_render (s : State) : s.advance.render = false := rfl
@[simp] theorem State.advance_draws (s : State) : s.advance.draws = s.draws := rfl
@[simp] theorem State.advance_reg (s : State) (r : RegIdx) : s.advance.reg r = s.reg r := rfl
@[simp] theorem State.advance_slot (s : State) (j : Fin 16) : s.advance.slot j = s.slot j := rfl
@[simp] theorem State.advance_key (s : State) (k : RegIdx) : s.advance.key k = s.key k := rfl
@[simp] theorem State.advance_memRead (s : State) (a : Nat) : s.advance.memRead a = s.memRead a := rfl

/-! ### raise -/

@[simp] theorem State.raise_v (s : State) (k : Fault) : (s.raise k).v = s.v := rfl
@[simp] theorem State.raise_index (s : State) (k : Fault) : (s.raise k).index = s.index := rfl
@[simp] theorem State.raise_pc (s : State) (k : Fault) : (s.raise k).pc = s.pc := rfl
@[simp] theorem State.raise_sp (s : State) (k : Fault) : (s.raise k).sp = s.sp := rfl
@[simp] theorem State.raise_stack (s : State) (k : Fault) : (s.raise k).stack = s.stack := rfl
@[simp] theorem State.raise_dt (s : State) (k : Fault) : (s.raise k).dt = s.dt := rfl
@[simp] theorem State.raise_st (s : State) (k : Fault) : (s.raise k).st = s.st := rfl
@[simp] theorem State.raise_disp (s : State) (k : Fault) : (s.raise k).disp = s.disp := rfl
@[simp] theorem State.raise_keys (s : State) (k : Fault) : (s.raise k).keys = s.keys := rfl
@[simp] theorem State.raise_mem (s : State) (k : Fault) : (s.raise k).mem = s.mem := rfl
@[simp] theorem State.raise_status (s : State) (k : Fault) :
    (s.raise k).status = .faulted { kind := k, word := s.fetchWord, pc := s.pc, sp := s.sp } := rfl
@[simp] theorem State.raise_cfg (s : State) (k : Fault) : (s.raise k).cfg = s.cfg := rfl
@[simp] theorem State.raise_render (s : State) (k : Fault) : (s.raise k).render = false := rfl
@[simp] theorem State.raise_draws (s : State) (k : Fault) : (s.raise k).draws = s.draws := rfl
@[simp] theorem State.raise_reg (s : State) (k : Fault) (r : RegIdx) : (s.raise k).reg r = s.reg r := rfl
@[simp] theorem State.raise_slot (s : State) (k : Fault) (j : Fin 16) : (s.raise k).slot j = s.slot j := rfl
@[simp] theorem State.raise_key (s : State) (k : Fault) (j : RegIdx) : (s.raise k).key j = s.key j := rfl
@[simp] theorem State.raise_memRead (s : State) (k : Fault) (a : Nat) : (s.raise k).memRead a = s.memRead a := rfl
@[simp] theorem State.raise_fetchWord (s : State) (k : Fault) : (s.raise k).fetchWord = s.fetchWord := rfl

/-! ### setRegFlag: two register writes, the flag last (R137) -/

@[simp] theorem State.setRegFlag_v (s : State) (x : RegIdx) (b f : Byte) :
    (s.setRegFlag x b f).v = (s.v.set x.val b).set vf.val f := rfl
@[simp] theorem State.setRegFlag_index (s : State) (x : RegIdx) (b f : Byte) :
    (s.setRegFlag x b f).index = s.index := rfl
@[simp] theorem State.setRegFlag_pc (s : State) (x : RegIdx) (b f : Byte) : (s.setRegFlag x b f).pc = s.pc := rfl
@[simp] theorem State.setRegFlag_sp (s : State) (x : RegIdx) (b f : Byte) : (s.setRegFlag x b f).sp = s.sp := rfl
@[simp] theorem State.setRegFlag_stack (s : State) (x : RegIdx) (b f : Byte) :
    (s.setRegFlag x b f).stack = s.stack := rfl
@[simp] theorem State.setRegFlag_dt (s : State) (x : RegIdx) (b f : Byte) : (s.setRegFlag x b f).dt = s.dt := rfl
@[simp] theorem State.setRegFlag_st (s : State) (x : RegIdx) (b f : Byte) : (s.setRegFlag x b f).st = s.st := rfl
@[simp] theorem State.setRegFlag_disp (s : State) (x : RegIdx) (b f : Byte) : (s.setRegFlag x b f).disp = s.disp := rfl
@[simp] theorem State.setRegFlag_keys (s : State) (x : RegIdx) (b f : Byte) : (s.setRegFlag x b f).keys = s.keys := rfl
@[simp] theorem State.setRegFlag_mem (s : State) (x : RegIdx) (b f : Byte) : (s.setRegFlag x b f).mem = s.mem := rfl
@[simp] theorem State.setRegFlag_status (s : State) (x : RegIdx) (b f : Byte) :
    (s.setRegFlag x b f).status = s.status := rfl
@[simp] theorem State.setRegFlag_cfg (s : State) (x : RegIdx) (b f : Byte) : (s.setRegFlag x b f).cfg = s.cfg := rfl
@[simp] theorem State.setRegFlag_render (s : State) (x : RegIdx) (b f : Byte) :
    (s.setRegFlag x b f).render = s.render := rfl
@[simp] theorem State.setRegFlag_draws (s : State) (x : RegIdx) (b f : Byte) :
    (s.setRegFlag x b f).draws = s.draws := rfl
@[simp] theorem State.setRegFlag_slot (s : State) (x : RegIdx) (b f : Byte) (j : Fin 16) :
    (s.setRegFlag x b f).slot j = s.slot j := rfl
@[simp] theorem State.setRegFlag_key (s : State) (x : RegIdx) (b f : Byte) (k : RegIdx) :
    (s.setRegFlag x b f).key k = s.key k := rfl
@[simp] theorem State.setRegFlag_memRead (s : State) (x : RegIdx) (b f : Byte) (a : Nat) :
    (s.setRegFlag x b f).memRead a = s.memRead a := rfl

/-! ### pop -/

@[simp] theorem State.pop_word (s : State) (h : 0 < s.sp.val) : (s.pop h).1 = s.stack[s.sp.val - 1] := rfl
@[simp] theorem State.pop_v (s : State) (h : 0 < s.sp.val) : (s.pop h).2.v = s.v := rfl
@[simp] theorem State.pop_index (s : State) (h : 0 < s.sp.val) : (s.pop h).2.index = s.index := rfl
@[simp] theorem State.pop_pc (s : State) (h : 0 < s.sp.val) : (s.pop h).2.pc = s.pc := rfl
@[simp] theorem State.pop_sp (s : State) (h : 0 < s.sp.val) : (s.pop h).2.sp = ⟨s.sp.val - 1, by omega⟩ := rfl
@[simp] theorem State.pop_stack (s : State) (h : 0 < s.sp.val) : (s.pop h).2.stack = s.stack := rfl
@[simp] theorem State.pop_dt (s : State) (h : 0 < s.sp.val) : (s.pop h).2.dt = s.dt := rfl
@[simp] theorem State.pop_st (s : State) (h : 0 < s.sp.val) : (s.pop h).2.st = s.st := rfl
@[simp] theorem State.pop_disp (s : State) (h : 0 < s.sp.val) : (s.pop h).2.disp = s.disp := rfl
@[simp] theorem State.pop_keys (s : State) (h : 0 < s.sp.val) : (s.pop h).2.keys = s.keys := rfl
@[simp] theorem State.pop_mem (s : State) (h : 0 < s.sp.val) : (s.pop h).2.mem = s.mem := rfl
@[simp] theorem State.pop_status (s : State) (h : 0 < s.sp.val) : (s.pop h).2.status = s.status := rfl
@[simp] theorem State.pop_cfg (s : State) (h : 0 < s.sp.val) : (s.pop h).2.cfg = s.cfg := rfl
@[simp] theorem State.pop_render (s : State) (h : 0 < s.sp.val) : (s.pop h).2.render = s.render := rfl
@[simp] theorem State.pop_draws (s : State) (h : 0 < s.sp.val) : (s.pop h).2.draws = s.draws := rfl
@[simp] theorem State.pop_reg (s : State) (h : 0 < s.sp.val) (r : RegIdx) : (s.pop h).2.reg r = s.reg r := rfl
@[simp] theorem State.pop_slot (s : State) (h : 0 < s.sp.val) (j : Fin 16) : (s.pop h).2.slot j = s.slot j := rfl
@[simp] theorem State.pop_key (s : State) (h : 0 < s.sp.val) (k : RegIdx) : (s.pop h).2.key k = s.key k := rfl
@[simp] theorem State.pop_memRead (s : State) (h : 0 < s.sp.val) (a : Nat) : (s.pop h).2.memRead a = s.memRead a := rfl

/-! ### skipIf -/

@[simp] theorem State.skipIf_v (s : State) (c : Bool) : (s.skipIf c).v = s.v := by cases c <;> rfl
@[simp] theorem State.skipIf_index (s : State) (c : Bool) : (s.skipIf c).index = s.index := by cases c <;> rfl
@[simp] theorem State.skipIf_pc (s : State) (c : Bool) :
    (s.skipIf c).pc = if c then s.pc + 2 else s.pc := by cases c <;> rfl
@[simp] theorem State.skipIf_sp (s : State) (c : Bool) : (s.skipIf c).sp = s.sp := by cases c <;> rfl
@[simp] theorem State.skipIf_stack (s : State) (c : Bool) : (s.skipIf c).stack = s.stack := by cases c <;> rfl
@[simp] theorem State.skipIf_dt (s : State) (c : Bool) : (s.skipIf c).dt = s.dt := by cases c <;> rfl
@[simp] theorem State.skipIf_st (s : State) (c : Bool) : (s.skipIf c).st = s.st := by cases c <;> rfl
@[simp] theorem State.skipIf_disp (s : State) (c : Bool) : (s.skipIf c).disp = s.disp := by cases c <;> rfl
@[simp] theorem State.skipIf_keys (s : State) (c : Bool) : (s.skipIf c).keys = s.keys := by cases c <;> rfl
@[simp] theorem State.skipIf_mem (s : State) (c : Bool) : (s.skipIf c).mem = s.mem := by cases c <;> rfl
@[simp] theorem State.skipIf_status (s : State) (c : Bool) : (s.skipIf c).status = s.status := by cases c <;> rfl
@[simp] theorem State.skipIf_cfg (s : State) (c : Bool) : (s.skipIf c).cfg = s.cfg := by cases c <;> rfl
@[simp] theorem State.skipIf_render (s : State) (c : Bool) : (s.skipIf c).render = s.render := by cases c <;> rfl
@[simp] theorem State.skipIf_draws (s : State) (c : Bool) : (s.skipIf c).draws = s.draws := by cases c <;> rfl
@[simp] theorem State.skipIf_reg (s : State) (c : Bool) (r : RegIdx) :
    (s.skipIf c).reg r = s.reg r := by cases c <;> rfl
@[simp] theorem State.skipIf_slot (s : State) (c : Bool) (j : Fin 16) :
    (s.skipIf c).slot j = s.slot j := by cases c <;> rfl
@[simp] theorem State.skipIf_key (s : State) (c : Bool) (k : RegIdx) :
    (s.skipIf c).key k = s.key k := by cases c <;> rfl
@[simp] theorem State.skipIf_memRead (s : State) (c : Bool) (a : Nat) :
    (s.skipIf c).memRead a = s.memRead a := by cases c <;> rfl

/-! ### bumpIndex (R194, R195) -/

@[simp] theorem State.bumpIndex_v (s : State) (x : RegIdx) :
    (s.bumpIndex x).v = s.v := by unfold State.bumpIndex; split <;> rfl
@[simp] theorem State.bumpIndex_index (s : State) (x : RegIdx) :
    (s.bumpIndex x).index = if s.cfg.loadStoreIncrementsI then s.index + BitVec.ofNat 16 (x.val + 1) else s.index := by
  unfold State.bumpIndex; split <;> rfl
@[simp] theorem State.bumpIndex_pc (s : State) (x : RegIdx) :
    (s.bumpIndex x).pc = s.pc := by unfold State.bumpIndex; split <;> rfl
@[simp] theorem State.bumpIndex_sp (s : State) (x : RegIdx) :
    (s.bumpIndex x).sp = s.sp := by unfold State.bumpIndex; split <;> rfl
@[simp] theorem State.bumpIndex_stack (s : State) (x : RegIdx) :
    (s.bumpIndex x).stack = s.stack := by unfold State.bumpIndex; split <;> rfl
@[simp] theorem State.bumpIndex_dt (s : State) (x : RegIdx) :
    (s.bumpIndex x).dt = s.dt := by unfold State.bumpIndex; split <;> rfl
@[simp] theorem State.bumpIndex_st (s : State) (x : RegIdx) :
    (s.bumpIndex x).st = s.st := by unfold State.bumpIndex; split <;> rfl
@[simp] theorem State.bumpIndex_disp (s : State) (x : RegIdx) :
    (s.bumpIndex x).disp = s.disp := by unfold State.bumpIndex; split <;> rfl
@[simp] theorem State.bumpIndex_keys (s : State) (x : RegIdx) :
    (s.bumpIndex x).keys = s.keys := by unfold State.bumpIndex; split <;> rfl
@[simp] theorem State.bumpIndex_mem (s : State) (x : RegIdx) :
    (s.bumpIndex x).mem = s.mem := by unfold State.bumpIndex; split <;> rfl
@[simp] theorem State.bumpIndex_status (s : State) (x : RegIdx) :
    (s.bumpIndex x).status = s.status := by unfold State.bumpIndex; split <;> rfl
@[simp] theorem State.bumpIndex_cfg (s : State) (x : RegIdx) :
    (s.bumpIndex x).cfg = s.cfg := by unfold State.bumpIndex; split <;> rfl
@[simp] theorem State.bumpIndex_render (s : State) (x : RegIdx) :
    (s.bumpIndex x).render = s.render := by unfold State.bumpIndex; split <;> rfl
@[simp] theorem State.bumpIndex_draws (s : State) (x : RegIdx) :
    (s.bumpIndex x).draws = s.draws := by unfold State.bumpIndex; split <;> rfl
@[simp] theorem State.bumpIndex_reg (s : State) (x : RegIdx) (r : RegIdx) :
    (s.bumpIndex x).reg r = s.reg r := by
  unfold State.bumpIndex; split <;> rfl
@[simp] theorem State.bumpIndex_slot (s : State) (x : RegIdx) (j : Fin 16) :
    (s.bumpIndex x).slot j = s.slot j := by
  unfold State.bumpIndex; split <;> rfl
@[simp] theorem State.bumpIndex_key (s : State) (x : RegIdx) (k : RegIdx) :
    (s.bumpIndex x).key k = s.key k := by
  unfold State.bumpIndex; split <;> rfl
@[simp] theorem State.bumpIndex_memRead (s : State) (x : RegIdx) (a : Nat) :
    (s.bumpIndex x).memRead a = s.memRead a := by
  unfold State.bumpIndex; split <;> rfl

/-! ### the host's moves -/

@[simp] theorem tick_v (s : State) : (tick s).v = s.v := rfl
@[simp] theorem tick_index (s : State) : (tick s).index = s.index := rfl
@[simp] theorem tick_pc (s : State) : (tick s).pc = s.pc := rfl
@[simp] theorem tick_sp (s : State) : (tick s).sp = s.sp := rfl
@[simp] theorem tick_stack (s : State) : (tick s).stack = s.stack := rfl
@[simp] theorem tick_dt (s : State) : (tick s).dt = countDown s.dt := rfl
@[simp] theorem tick_st (s : State) : (tick s).st = countDown s.st := rfl
@[simp] theorem tick_disp (s : State) : (tick s).disp = s.disp := rfl
@[simp] theorem tick_keys (s : State) : (tick s).keys = s.keys := rfl
@[simp] theorem tick_mem (s : State) : (tick s).mem = s.mem := rfl
@[simp] theorem tick_status (s : State) : (tick s).status = s.status := rfl
@[simp] theorem tick_cfg (s : State) : (tick s).cfg = s.cfg := rfl
@[simp] theorem tick_render (s : State) : (tick s).render = s.render := rfl
@[simp] theorem tick_draws (s : State) : (tick s).draws = s.draws := rfl
@[simp] theorem tick_reg (s : State) (r : RegIdx) : (tick s).reg r = s.reg r := rfl
@[simp] theorem tick_slot (s : State) (j : Fin 16) : (tick s).slot j = s.slot j := rfl
@[simp] theorem tick_key (s : State) (k : RegIdx) : (tick s).key k = s.key k := rfl
@[simp] theorem tick_memRead (s : State) (a : Nat) : (tick s).memRead a = s.memRead a := rfl
@[simp] theorem tick_fetchWord (s : State) : (tick s).fetchWord = s.fetchWord := rfl
@[simp] theorem writeKeys_v (ks : Keys) (s : State) : (writeKeys ks s).v = s.v := rfl
@[simp] theorem writeKeys_index (ks : Keys) (s : State) : (writeKeys ks s).index = s.index := rfl
@[simp] theorem writeKeys_pc (ks : Keys) (s : State) : (writeKeys ks s).pc = s.pc := rfl
@[simp] theorem writeKeys_sp (ks : Keys) (s : State) : (writeKeys ks s).sp = s.sp := rfl
@[simp] theorem writeKeys_stack (ks : Keys) (s : State) : (writeKeys ks s).stack = s.stack := rfl
@[simp] theorem writeKeys_dt (ks : Keys) (s : State) : (writeKeys ks s).dt = s.dt := rfl
@[simp] theorem writeKeys_st (ks : Keys) (s : State) : (writeKeys ks s).st = s.st := rfl
@[simp] theorem writeKeys_disp (ks : Keys) (s : State) : (writeKeys ks s).disp = s.disp := rfl
@[simp] theorem writeKeys_keys (ks : Keys) (s : State) : (writeKeys ks s).keys = ks := rfl
@[simp] theorem writeKeys_mem (ks : Keys) (s : State) : (writeKeys ks s).mem = s.mem := rfl
@[simp] theorem writeKeys_status (ks : Keys) (s : State) : (writeKeys ks s).status = s.status := rfl
@[simp] theorem writeKeys_cfg (ks : Keys) (s : State) : (writeKeys ks s).cfg = s.cfg := rfl
@[simp] theorem writeKeys_render (ks : Keys) (s : State) : (writeKeys ks s).render = s.render := rfl
@[simp] theorem writeKeys_draws (ks : Keys) (s : State) : (writeKeys ks s).draws = s.draws := rfl
@[simp] theorem writeKeys_reg (ks : Keys) (s : State) (r : RegIdx) : (writeKeys ks s).reg r = s.reg r := rfl
@[simp] theorem writeKeys_slot (ks : Keys) (s : State) (j : Fin 16) : (writeKeys ks s).slot j = s.slot j := rfl
@[simp] theorem writeKeys_memRead (ks : Keys) (s : State) (a : Nat) : (writeKeys ks s).memRead a = s.memRead a := rfl
@[simp] theorem writeKeys_fetchWord (ks : Keys) (s : State) : (writeKeys ks s).fetchWord = s.fetchWord := rfl

/-! ### reset -/

@[simp] theorem State.resetWith_v (cfg : Config) : (State.resetWith cfg).v = Vector.replicate 16 0 := rfl
@[simp] theorem State.resetWith_index (cfg : Config) : (State.resetWith cfg).index = 0 := rfl
@[simp] theorem State.resetWith_pc (cfg : Config) : (State.resetWith cfg).pc = 0x200 := rfl
@[simp] theorem State.resetWith_sp (cfg : Config) : (State.resetWith cfg).sp = 0 := rfl
@[simp] theorem State.resetWith_stack (cfg : Config) : (State.resetWith cfg).stack = Vector.replicate 16 0 := rfl
@[simp] theorem State.resetWith_dt (cfg : Config) : (State.resetWith cfg).dt = 0 := rfl
@[simp] theorem State.resetWith_st (cfg : Config) : (State.resetWith cfg).st = 0 := rfl
@[simp] theorem State.resetWith_disp (cfg : Config) : (State.resetWith cfg).disp = clearDisplay := rfl
@[simp] theorem State.resetWith_keys (cfg : Config) : (State.resetWith cfg).keys = Vector.replicate 16 false := rfl
@[simp] theorem State.resetWith_mem (cfg : Config) : (State.resetWith cfg).mem = [] := rfl
@[simp] theorem State.resetWith_status (cfg : Config) : (State.resetWith cfg).status = .running := rfl
@[simp] theorem State.resetWith_cfg (cfg : Config) : (State.resetWith cfg).cfg = cfg := rfl
@[simp] theorem State.resetWith_render (cfg : Config) : (State.resetWith cfg).render = false := rfl
@[simp] theorem State.resetWith_draws (cfg : Config) : (State.resetWith cfg).draws = 0 := rfl

end Sys2Proof.Machine
end

