-- ==== Sys2Proof/Laws/Draw.lean ====
section
/-! SUPPORT. What a draw does to a cell and to the collision, once: first a pixel, then a row, then the sprite. -/

namespace Sys2Proof.Machine

@[simp] theorem clearDisplay_cell (px py : Nat) : clearDisplay.cell px py = false := by
  unfold Display.cell clearDisplay
  split
  · simp
  · rfl

/-- Outside the display every cell reads false. -/
theorem Display.cell_outside (d : Display) {px py : Nat} (h : ¬ (px < 64 ∧ py < 32)) : d.cell px py = false := by
  simp [Display.cell, h]

/-- A drawn pixel flips its own cell, if that lies inside, and no other (R163). -/
theorem drawPixel_cell (dc : Display × Bool) (px py qx qy : Nat) :
    (drawPixel dc px py).1.cell qx qy
      = (dc.1.cell qx qy ^^ decide (px = qx ∧ py = qy ∧ px < 64 ∧ py < 32)) := by
  unfold drawPixel Display.cell
  by_cases h : px < 64 ∧ py < 32
  · by_cases hq : qx < 64 ∧ qy < 32
    · by_cases hy : py = qy
      · by_cases hx : px = qx
        · subst hx hy; simp [h]
        · subst hy; simp [h, hq, hx]
      · simp [h, hq, hy]
    · have : px = qx → ¬ py = qy := by omega
      simpa [h, hq] using this
  · simp [h]

/-- A drawn pixel collides when it lies on a set cell (R162). -/
theorem drawPixel_collision (dc : Display × Bool) (px py : Nat) :
    (drawPixel dc px py).2 = (dc.2 || dc.1.cell px py) := by
  unfold drawPixel Display.cell
  by_cases h : px < 64 ∧ py < 32 <;> simp [h]

/-- The pixel at column `qx` of a row byte drawn from column `vx`, restricted to its first `n` pixels. -/
def rowBit (b : Byte) (vx n qx : Nat) : Bool :=
  decide (vx ≤ qx) && decide (qx < vx + n) && b.getLsbD (7 - (qx - vx))

theorem rowBit_zero (b : Byte) (vx qx : Nat) : rowBit b vx 0 qx = false := by
  refine Bool.eq_false_iff.2 fun h => ?_
  simp only [rowBit, Bool.and_eq_true, decide_eq_true_eq] at h
  omega

theorem spriteBit_zero (s : State) (vx vy px py : Nat) : spriteBit s vx vy 0 px py = false := by
  refine Bool.eq_false_iff.2 fun h => ?_
  simp only [spriteBit, Bool.and_eq_true, decide_eq_true_eq] at h
  omega

/-- The first `n` pixels of a row. -/
def rowPixels (b : Byte) (vx py n : Nat) (dc : Display × Bool) : Display × Bool :=
  (List.range n).foldl (fun dc k => if b.getLsbD (7 - k) then drawPixel dc (vx + k) py else dc) dc

theorem rowPixels_succ (b : Byte) (vx py n : Nat) (dc : Display × Bool) :
    rowPixels b vx py (n + 1) dc =
      if b.getLsbD (7 - n) then drawPixel (rowPixels b vx py n dc) (vx + n) py else rowPixels b vx py n dc := by
  simp [rowPixels, List.range_succ]

theorem rowPixels_cell (b : Byte) (vx py : Nat) (dc : Display × Bool) (qx qy : Nat) (hq : qx < 64 ∧ qy < 32) (n : Nat) :
    (rowPixels b vx py n dc).1.cell qx qy = (dc.1.cell qx qy ^^ (decide (qy = py) && rowBit b vx n qx)) := by
  induction n with
  | zero => simp [rowPixels, rowBit_zero]
  | succ n ih =>
    rw [rowPixels_succ]
    by_cases hx : qx = vx + n
    · subst hx
      have h0 : rowBit b vx n (vx + n) = false := by simp [rowBit]
      have h1 : rowBit b vx (n + 1) (vx + n) = b.getLsbD (7 - n) := by simp [rowBit]
      by_cases hb : b.getLsbD (7 - n) = true
      · by_cases hy : py = qy
        · subst hy; simp [hb, drawPixel_cell, ih, h0, h1, hq]
        · simp [hb, drawPixel_cell, ih, h0, h1, hy, Ne.symm hy]
      · simp [hb, ih, h0, h1]
    · have h1 : rowBit b vx (n + 1) qx = rowBit b vx n qx := by
        simp only [rowBit]
        congr 2
        simp only [decide_eq_decide]
        omega
      have h2 : ¬ (vx + n = qx ∧ py = qy ∧ vx + n < 64 ∧ py < 32) := by omega
      by_cases hb : b.getLsbD (7 - n) = true <;> simp [hb, drawPixel_cell, ih, h1, h2]

theorem rowPixels_collision (b : Byte) (vx py : Nat) (dc : Display × Bool) (n : Nat) :
    (rowPixels b vx py n dc).2 = true ↔
      dc.2 = true ∨ ∃ qx < 64, py < 32 ∧ rowBit b vx n qx = true ∧ dc.1.cell qx py = true := by
  induction n with
  | zero => simp [rowPixels, rowBit_zero]
  | succ n ih =>
    rw [rowPixels_succ]
    have hstep : ∀ qx, rowBit b vx (n + 1) qx = true ↔
        rowBit b vx n qx = true ∨ (qx = vx + n ∧ b.getLsbD (7 - n) = true) := by
      intro qx
      simp only [rowBit, Bool.and_eq_true, decide_eq_true_eq]
      constructor
      · rintro ⟨⟨h1, h2⟩, h3⟩
        by_cases he : qx = vx + n
        · subst he; right; simpa using h3
        · left; exact ⟨⟨h1, by omega⟩, h3⟩
      · rintro (⟨⟨h1, h2⟩, h3⟩ | ⟨rfl, h3⟩)
        · exact ⟨⟨h1, by omega⟩, h3⟩
        · exact ⟨⟨by omega, by omega⟩, by simpa using h3⟩
    by_cases hb : b.getLsbD (7 - n) = true
    · rw [if_pos hb, drawPixel_collision, Bool.or_eq_true, ih]
      constructor
      · rintro ((h | ⟨qx, h1, h2, h3, h4⟩) | h)
        · exact .inl h
        · exact .inr ⟨qx, h1, h2, (hstep qx).2 (.inl h3), h4⟩
        · by_cases hin : vx + n < 64 ∧ py < 32
          · rw [rowPixels_cell _ _ _ _ _ _ hin] at h
            have h0 : rowBit b vx n (vx + n) = false := by simp [rowBit]
            exact .inr ⟨vx + n, hin.1, hin.2, (hstep _).2 (.inr ⟨rfl, hb⟩), by simpa [h0] using h⟩
          · simp [Display.cell_outside _ hin] at h
      · rintro (h | ⟨qx, h1, h2, h3, h4⟩)
        · exact .inl (.inl h)
        · rcases (hstep qx).1 h3 with h5 | ⟨rfl, -⟩
          · exact .inl (.inr ⟨qx, h1, h2, h5, h4⟩)
          · have h0 : rowBit b vx n (vx + n) = false := by simp [rowBit]
            exact .inr (by rw [rowPixels_cell _ _ _ _ _ _ ⟨h1, h2⟩]; simpa [h0] using h4)
    · rw [if_neg hb, ih]
      simp [hstep, hb]

theorem drawSprite_succ (s : State) (vx vy n : Nat) (dc : Display × Bool) :
    drawSprite s vx vy (n + 1) dc =
      rowPixels (s.memRead (s.index.toNat + n)) vx (vy + n) 8 (drawSprite s vx vy n dc) := by
  simp [drawSprite, List.range_succ, rowPixels, drawRow]

theorem spriteBit_succ (s : State) (vx vy n px py : Nat) :
    spriteBit s vx vy (n + 1) px py =
      (spriteBit s vx vy n px py
        ^^ (decide (py = vy + n) && rowBit (s.memRead (s.index.toNat + n)) vx 8 px)) := by
  by_cases hy : py = vy + n
  · subst hy; simp [spriteBit, rowBit, Bool.and_assoc]
  · have : decide (py < vy + (n + 1)) = decide (py < vy + n) := by simp only [decide_eq_decide]; omega
    simp [spriteBit, this, hy]

/-- EVERY CELL of the display after a draw is the old cell XOR the sprite's bit there (R161, R163, R164). -/
theorem drawSprite_cell (s : State) (vx vy : Nat) (dc : Display × Bool) (px py : Nat) (h : px < 64 ∧ py < 32) (n : Nat) :
    (drawSprite s vx vy n dc).1.cell px py = (dc.1.cell px py ^^ spriteBit s vx vy n px py) := by
  induction n with
  | zero => simp [drawSprite, spriteBit_zero]
  | succ n ih => rw [drawSprite_succ, rowPixels_cell _ _ _ _ _ _ h, ih, spriteBit_succ, Bool.xor_assoc]

/-- THE COLLISION of a draw: some sprite bit inside the display met a set cell (R162). -/
theorem drawSprite_collision (s : State) (vx vy : Nat) (dc : Display × Bool) (n : Nat) :
    (drawSprite s vx vy n dc).2 = true ↔
      dc.2 = true ∨ ∃ px < 64, ∃ py < 32, spriteBit s vx vy n px py = true ∧ dc.1.cell px py = true := by
  induction n with
  | zero => simp [drawSprite, spriteBit_zero]
  | succ n ih =>
    have hfresh : ∀ px, spriteBit s vx vy n px (vy + n) = false := by simp [spriteBit]
    rw [drawSprite_succ, rowPixels_collision, ih]
    constructor
    · rintro ((h | ⟨px, hx, py, hy, h1, h2⟩) | ⟨px, hx, hy, h1, h2⟩)
      · exact .inl h
      · have hne : py ≠ vy + n := by rintro rfl; simp [hfresh] at h1
        exact .inr ⟨px, hx, py, hy, by simp [spriteBit_succ, h1, hne], h2⟩
      · rw [drawSprite_cell _ _ _ _ _ _ ⟨hx, hy⟩] at h2
        exact .inr ⟨px, hx, vy + n, hy, by simp [spriteBit_succ, hfresh, h1], by simpa [hfresh] using h2⟩
    · rintro (h | ⟨px, hx, py, hy, h1, h2⟩)
      · exact .inl (.inl h)
      · by_cases he : py = vy + n
        · subst he
          exact .inr ⟨px, hx, hy, by simpa [spriteBit_succ, hfresh] using h1,
            by rw [drawSprite_cell _ _ _ _ _ _ ⟨hx, hy⟩]; simpa [hfresh] using h2⟩
        · exact .inl (.inr ⟨px, hx, py, hy, by simpa [spriteBit_succ, he] using h1, h2⟩)

end Sys2Proof.Machine
end

