-- ==== Sys2Proof/Laws/Memory.lean ====
section
/-! SUPPORT. Memory: a read after a write, the canonical form kept by every write, and equal memories are equal data. -/

namespace Sys2Proof.Machine

theorem mask12_lt (a : Nat) : mask12 a < 4096 := Nat.mod_lt _ (by decide)

theorem mask12_of_lt {a : Nat} (h : a < 4096) : mask12 a = a := Nat.mod_eq_of_lt h

/-- The canonical form from a higher address on is one from a lower address on. -/
theorem Memory.wfFrom_mono {bg : Nat → Byte} {lo lo' : Nat} {m : Memory} (hle : lo ≤ lo')
    (h : Memory.wfFrom bg lo' m = true) : Memory.wfFrom bg lo m = true := by
  cases m with
  | nil => rfl
  | cons c m =>
    simp only [Memory.wfFrom, Bool.and_eq_true, decide_eq_true_eq] at h ⊢
    exact ⟨⟨⟨hle.trans h.1.1.1, h.1.1.2⟩, h.1.2⟩, h.2⟩

/-- Below the first listed address, memory reads as the background. -/
theorem Memory.read_below {bg : Nat → Byte} {m : Memory} {lo a : Nat} (h : Memory.wfFrom bg lo m = true) (ha : a < lo) :
    Memory.read bg m a = bg a := by
  induction m generalizing lo with
  | nil => rfl
  | cons c m ih =>
    simp only [Memory.wfFrom, Bool.and_eq_true, decide_eq_true_eq] at h
    have hne : a ≠ c.1 := by omega
    simpa [Memory.read, hne] using ih h.2 (by omega)

/-- A write keeps the canonical form. -/
theorem Memory.write_wfFrom {bg : Nat → Byte} {m : Memory} {lo a : Nat} (v : Byte)
    (h : Memory.wfFrom bg lo m = true) (hlo : lo ≤ a) (ha : a < 4096) :
    Memory.wfFrom bg lo (Memory.write bg m a v) = true := by
  induction m generalizing lo with
  | nil =>
    by_cases hv : v = bg a
    · simp [Memory.write, hv, Memory.wfFrom]
    · simp [Memory.write, hv, Memory.wfFrom, hlo, ha]
  | cons c m ih =>
    have h' := h
    simp only [Memory.wfFrom, Bool.and_eq_true, decide_eq_true_eq] at h
    obtain ⟨⟨⟨h1, h2⟩, h3⟩, h4⟩ := h
    simp only [Memory.write]
    by_cases hlt : a < c.1
    · by_cases hv : v = bg a
      · simpa [hlt, hv] using h'
      · have h5 : Memory.wfFrom bg (a + 1) (c :: m) = true := by
          simp only [Memory.wfFrom, Bool.and_eq_true, decide_eq_true_eq]
          exact ⟨⟨⟨by omega, h2⟩, h3⟩, h4⟩
        simpa [hlt, hv, Memory.wfFrom, hlo, ha] using h5
    · by_cases heq : a = c.1
      · subst heq
        by_cases hv : v = bg c.1
        · simpa [hv] using Memory.wfFrom_mono (by omega) h4
        · simpa [hv, Memory.wfFrom, hlo, ha] using h4
      · simpa [hlt, heq, Memory.wfFrom, h1, h2, h3] using ih h4 (by omega)

/-- A read gives the byte written at its own address and what it gave before at any other. -/
theorem Memory.read_write {bg : Nat → Byte} {m : Memory} {lo : Nat} (a b : Nat) (v : Byte)
    (h : Memory.wfFrom bg lo m = true) :
    Memory.read bg (Memory.write bg m a v) b = if b = a then v else Memory.read bg m b := by
  induction m generalizing lo with
  | nil =>
    by_cases hv : v = bg a <;> by_cases hb : b = a <;> simp [Memory.write, Memory.read, hv, hb]
  | cons c m ih =>
    have h' := h
    simp only [Memory.wfFrom, Bool.and_eq_true, decide_eq_true_eq] at h
    simp only [Memory.write]
    by_cases hlt : a < c.1
    · by_cases hv : v = bg a
      · by_cases hb : b = a
        · subst hb
          have : Memory.read bg m b = bg b := Memory.read_below h.2 (by omega)
          simp [hlt, hv, Memory.read, this]; omega
        · simp [hlt, hv, hb]
      · by_cases hb : b = a <;> simp [hlt, hv, hb, Memory.read]
    · by_cases heq : a = c.1
      · subst heq
        by_cases hv : v = bg c.1
        · by_cases hb : b = c.1
          · subst hb
            simpa [hv] using Memory.read_below h.2 (Nat.lt_succ_self _)
          · simp [hv, hb, Memory.read]
        · by_cases hb : b = c.1 <;> simp [hv, hb, Memory.read]
      · by_cases hb : b = a
        · subst hb; simp [hlt, heq, Memory.read, ih h.2]
        · simp [hlt, heq, hb, Memory.read, ih h.2]

/-- Bytes stored one after another keep the canonical form. -/
theorem Memory.writeBytes_wf {bg : Nat → Byte} (bs : List Byte) : ∀ {m : Memory} {a : Nat},
    Memory.wfFrom bg 0 m = true → Memory.wfFrom bg 0 (Memory.writeBytes bg m a bs) = true := by
  induction bs with
  | nil => exact fun h => h
  | cons b bs ih => exact fun h => ih (Memory.write_wfFrom b h (Nat.zero_le _) (mask12_lt _))

/-- An address none of the stored bytes goes to reads as before. -/
theorem Memory.read_writeBytes_other {bg : Nat → Byte} (bs : List Byte) : ∀ {m : Memory} {a b : Nat},
    Memory.wfFrom bg 0 m = true → (∀ k < bs.length, b ≠ mask12 (a + k)) →
    Memory.read bg (Memory.writeBytes bg m a bs) b = Memory.read bg m b := by
  induction bs with
  | nil => exact fun _ _ => rfl
  | cons c bs ih =>
    intro m a b h hne
    have h0 : b ≠ mask12 a := by simpa using hne 0 (by simp)
    rw [Memory.writeBytes, ih (Memory.write_wfFrom c h (Nat.zero_le _) (mask12_lt _)), Memory.read_write _ _ _ h, if_neg h0]
    intro k hk
    have := hne (k + 1) (by simpa using hk)
    rwa [show a + (k + 1) = a + 1 + k by omega] at this

/-- Byte `k` of at most 4096 stored bytes reads back at its own address. -/
theorem Memory.read_writeBytes_same {bg : Nat → Byte} (bs : List Byte) : ∀ {m : Memory} {a k : Nat},
    Memory.wfFrom bg 0 m = true → bs.length ≤ 4096 → (hk : k < bs.length) →
    Memory.read bg (Memory.writeBytes bg m a bs) (mask12 (a + k)) = bs[k] := by
  induction bs with
  | nil => exact fun _ _ hk => absurd hk (by simp)
  | cons c bs ih =>
    intro m a k h hlen hk
    have hw : Memory.wfFrom bg 0 (Memory.write bg m (mask12 a) c) = true :=
      Memory.write_wfFrom c h (Nat.zero_le _) (mask12_lt _)
    simp only [List.length_cons] at hlen hk
    cases k with
    | zero =>
      rw [Memory.writeBytes, Memory.read_writeBytes_other bs hw, Nat.add_zero, Memory.read_write _ _ _ h]
      · simp
      · intro k hk'
        simp only [mask12]
        omega
    | succ k =>
      rw [Memory.writeBytes, show a + (k + 1) = a + 1 + k by omega]
      simpa using ih hw (by omega) (by omega)

/-- THE store of this machine: byte `k` of the list reads back at `a + k`, masked; every other address reads as before. -/
theorem State.storeBytes_memRead (s : State) (a : Nat) (bs : List Byte) (h : Memory.wf s.cfg s.mem = true)
    (hlen : bs.length ≤ 4096) :
    (∀ k (hk : k < bs.length), (s.storeBytes a bs).memRead (a + k) = bs[k]) ∧
      ∀ b, (∀ k < bs.length, mask12 b ≠ mask12 (a + k)) → (s.storeBytes a bs).memRead b = s.memRead b :=
  ⟨fun _ hk => Memory.read_writeBytes_same bs h hlen hk, fun _ hb => Memory.read_writeBytes_other bs h hb⟩

/-- A store keeps the canonical form. -/
theorem State.storeBytes_wf (s : State) (a : Nat) (bs : List Byte) (h : Memory.wf s.cfg s.mem = true) :
    Memory.wf (s.storeBytes a bs).cfg (s.storeBytes a bs).mem = true :=
  Memory.writeBytes_wf bs h

/-- The reset memory is canonical. -/
theorem State.resetWith_wf (cfg : Config) : Memory.wf (State.resetWith cfg).cfg (State.resetWith cfg).mem = true := rfl

end Sys2Proof.Machine
end

