-- ==== Sys2Proof/Laws/Registers.lean ====
section
/-! SUPPORT. Registers, the stack and the decimal and register-range operands: what reading gives after each update. -/

namespace Sys2Proof.Machine

@[simp] theorem State.reg_setReg (s : State) (r q : RegIdx) (b : Byte) :
    (s.setReg r b).reg q = if r = q then b else s.reg q := by
  simp only [State.reg, State.setReg_v, Vector.getElem_set, Fin.val_inj]

/-- The flag is what VF holds; Vx holds the result unless it is VF (R137). -/
@[simp] theorem State.reg_setRegFlag (s : State) (x q : RegIdx) (b f : Byte) :
    (s.setRegFlag x b f).reg q = if vf = q then f else if x = q then b else s.reg q := by
  simp only [State.setRegFlag, State.reg_setReg]

@[simp] theorem State.slot_push (s : State) (w : Word) (h : s.sp.val < 16) (j : Fin 16) :
    (s.push w h).slot j = if s.sp.val = j.val then w else s.slot j := by
  simp only [State.slot, State.push_stack, Vector.getElem_set]

/-- What is popped is the slot below `SP` (R153). -/
theorem State.pop_eq_slot (s : State) (h : 0 < s.sp.val) :
    (s.pop h).1 = s.slot ⟨s.sp.val - 1, by omega⟩ := rfl

theorem mem_regsThrough (x r : RegIdx) : r ∈ regsThrough x ↔ r.val ≤ x.val := by
  revert x r; decide

theorem regsThrough_length (x : RegIdx) : (regsThrough x).length = x.val + 1 := by
  revert x; decide

theorem regsThrough_get (x : RegIdx) (k : Nat) (h : k < (regsThrough x).length) :
    ((regsThrough x)[k]).val = k := by
  simp [regsThrough]

/-- Loading registers touches `V` alone. -/
theorem State.loadRegs_eq (rs : List RegIdx) : ∀ s : State, ∃ v, s.loadRegs rs = { s with v := v } := by
  induction rs with
  | nil => exact fun s => ⟨s.v, rfl⟩
  | cons r rs ih =>
    intro s
    obtain ⟨v, hv⟩ := ih (s.setReg r (s.memRead (s.index.toNat + r.val)))
    exact ⟨v, by simpa [State.loadRegs, State.setReg] using hv⟩

/-- Each listed register holds the byte at `I` plus its own number; every other register is kept (R195). -/
theorem State.loadRegs_reg (rs : List RegIdx) (q : RegIdx) : ∀ s : State,
    (s.loadRegs rs).reg q = if q ∈ rs then s.memRead (s.index.toNat + q.val) else s.reg q := by
  induction rs with
  | nil => intro s; simp [State.loadRegs]
  | cons r rs ih =>
    intro s
    by_cases hq : q ∈ rs <;> by_cases hr : r = q <;> simp [State.loadRegs, ih, hq, hr]
    exact fun h => absurd h.symm hr

end Sys2Proof.Machine
end

