-- ==== Sys2Proof/Laws/Step.lean ====
section
/-! SUPPORT. Everything one step can do, said once; and what the shared operations of the wait and of fetching answer. -/

namespace Sys2Proof.Machine

/-- A Running step's fetch, as the spec's two tests in their order (R101, R104, R208). -/
theorem fetchDecode_of_aligned {s : State} (h : Aligned s) :
    fetchDecode s = match decode s.cfg.gkOpcodes s.fetchWord with
      | .ok i => .ok i
      | .error _ => .error .unrecognizedOpcode := by
  unfold fetchDecode
  refine if_neg fun hc => ?_
  have h0 := h hc.1
  omega

theorem fetchDecode_of_not_aligned {s : State} (h : ¬ Aligned s) : fetchDecode s = .error .misalignedPC := by
  unfold fetchDecode
  refine if_pos ?_
  simp only [Aligned, Classical.not_imp] at h
  exact ⟨h.1, by omega⟩

theorem fetchDecode_ok (s : State) (i : Instr) :
    fetchDecode s = .ok i ↔ Aligned s ∧ decode s.cfg.gkOpcodes s.fetchWord = .ok i := by
  by_cases h : Aligned s
  · rw [fetchDecode_of_aligned h]
    cases decode s.cfg.gkOpcodes s.fetchWord <;> simp [h]
  · simp [fetchDecode_of_not_aligned h, h]

/-- A fetch that raises: an odd PC where that faults, or else a word that decodes to nothing. -/
theorem fetchDecode_error (s : State) (k : Fault) :
    fetchDecode s = .error k ↔
      (k = .misalignedPC ∧ ¬ Aligned s) ∨
        (k = .unrecognizedOpcode ∧ Aligned s ∧ ∃ r, decode s.cfg.gkOpcodes s.fetchWord = .error r) := by
  by_cases h : Aligned s
  · rw [fetchDecode_of_aligned h]
    cases decode s.cfg.gkOpcodes s.fetchWord <;> simp [h, eq_comm]
  · simp [fetchDecode_of_not_aligned h, h, eq_comm]

/-- THE CASES OF A STEP (R100): a faulted core, a waiting core, a fetch that raises, or one instruction. -/
theorem step_cases {s t : State} (h : step s = .next t) :
    (∃ r, s.status = .faulted r ∧ t = s.setRender false) ∨
    (∃ x snap, s.status = .awaitingKey x snap ∧ t = awaitKeyStep x snap s) ∨
    (s.status = .running ∧ ∃ k, fetchDecode s = .error k ∧ t = s.raise k) ∨
    (s.status = .running ∧ ∃ i, Aligned s ∧ decode s.cfg.gkOpcodes s.fetchWord = .ok i ∧ exec i s = .next t) := by
  unfold step at h
  split at h
  · rename_i r hr
    exact .inl ⟨r, hr, by simpa [stepFaulted] using h.symm⟩
  · rename_i x snap hs
    exact .inr (.inl ⟨x, snap, hs, by simpa using h.symm⟩)
  · rename_i hs
    unfold runStep at h
    split at h
    · rename_i i hi
      exact .inr (.inr (.inr ⟨hs, i, ((fetchDecode_ok s i).1 hi).1, ((fetchDecode_ok s i).1 hi).2, h⟩))
    · rename_i k hk
      exact .inr (.inr (.inl ⟨hs, k, hk, by simpa using h.symm⟩))

/-- What `firstDetected` finds: a detected key below which none is detected (R186). -/
theorem firstDetected_some {trigger : KeyWaitTrigger} {snap keys : Keys} {k : RegIdx}
    (h : firstDetected trigger snap keys = some k) :
    keyDetected trigger snap keys k = true ∧ ∀ j < k, keyDetected trigger snap keys j = false := by
  unfold firstDetected at h
  rw [List.find?_eq_some_iff_getElem] at h
  obtain ⟨h1, i, hi, h2, h3⟩ := h
  refine ⟨h1, fun j hj => ?_⟩
  have hki : k.val = i := by rw [← h2]; simp
  have := h3 j.val (hki ▸ hj)
  simpa using this

theorem firstDetected_none {trigger : KeyWaitTrigger} {snap keys : Keys}
    (h : firstDetected trigger snap keys = none) (k : RegIdx) : keyDetected trigger snap keys k = false := by
  have := List.find?_eq_none.1 h k (List.mem_finRange k)
  simpa using this

/-- A waiting step writes Vx, PC, `status` and the render output and nothing else (R184). -/
theorem awaitKeyStep_eq (x : RegIdx) (snap : Keys) (s : State) :
    (∃ k, firstDetected s.cfg.keyWaitTrigger snap s.keys = some k ∧
      awaitKeyStep x snap s =
        (((s.setReg x (BitVec.ofNat 8 k.val)).setPc (s.pc + 2)).setStatus .running).setRender false) ∨
    (firstDetected s.cfg.keyWaitTrigger snap s.keys = none ∧
      awaitKeyStep x snap s = (s.setStatus (.awaitingKey x s.keys)).setRender false) := by
  unfold awaitKeyStep
  cases h : firstDetected s.cfg.keyWaitTrigger snap s.keys with
  | some k => exact .inl ⟨k, rfl, rfl⟩
  | none => exact .inr ⟨rfl, rfl⟩

theorem keyNumber_some {b : Byte} {k : RegIdx} : keyNumber b = some k ↔ b.toNat = k.val := by
  unfold keyNumber
  by_cases h : b.toNat < 16
  · simp [h, Fin.ext_iff]
  · simp [h]; omega

theorem keyNumber_none {b : Byte} : keyNumber b = none ↔ 16 ≤ b.toNat := by
  unfold keyNumber
  by_cases h : b.toNat < 16
  · simp [h]
  · simp [h]; omega

/-- One timer under `tick()`: one less, and never below 0 (R171). -/
theorem countDown_toNat (b : Byte) : (countDown b).toNat = b.toNat - 1 := by
  unfold countDown
  by_cases h : b = 0
  · simp [h]
  · have : b.toNat ≠ 0 := fun h0 => h (BitVec.eq_of_toNat_eq (by simpa using h0))
    rw [if_neg h, BitVec.toNat_sub]
    simp
    omega

/-- A timer after one more tick. -/
theorem countDown_toNat_sub (b : Byte) (n : Nat) : (countDown b).toNat - n = b.toNat - (n + 1) := by
  rw [countDown_toNat]; omega

end Sys2Proof.Machine
end

