-- ==== Sys2Proof/Laws/Exec.lean ====
section
/-! SUPPORT. Everything one instruction can do to each kind of state, said once for all of exec; whole-machine rules are read off
it. And the shared ends of a meaning: falling through, skipping, faulting. -/

namespace Sys2Proof.Machine

/-- What executing `i` from `s` may leave in `t`, field by field: who writes it, and with what. -/
structure ExecEffect (i : Instr) (s t : State) : Prop where
  cfg : t.cfg = s.cfg
  keys : t.keys = s.keys
  /-- the run state stays, or the wait of R183 begins, or the one fault of R200 that the instruction has is raised -/
  status : t.status = s.status ∨
    (∃ x, i = .ldVxK x ∧ t.status = .awaitingKey x s.keys ∧ t.pc = s.pc ∧ t.mem = s.mem) ∨
    (∃ k, t = s.raise k ∧
      ((∃ nnn, i = .call nnn ∧ k = .stackOverflow ∧ s.sp.val = 16) ∨
        (i = .ret ∧ k = .stackUnderflow ∧ s.sp.val = 0) ∨
        (∃ x, (i = .skp x ∨ i = .sknp x) ∧ k = .outOfBoundsAccess ∧ 16 ≤ (s.reg x).toNat)))
  render : t.render = true ↔ (i = .cls ∨ ∃ x y n, i = .drw x y n)
  disp : t.disp ≠ s.disp → t.status = s.status ∧ (i = .cls ∨ ∃ x y n, i = .drw x y n)
  dt : t.dt ≠ s.dt → ∃ x, i = .ldDtVx x ∧ t.dt = s.reg x
  st : t.st ≠ s.st → ∃ x, i = .ldStVx x ∧ t.st = s.reg x
  sp : t.sp ≠ s.sp → i = .ret ∨ ∃ nnn, i = .call nnn
  stack : t.stack ≠ s.stack → ∃ nnn, i = .call nnn
  mem : t.mem ≠ s.mem → ∃ x, i = .ldBVx x ∨ i = .ldMemVx x
  wf : Memory.wf s.cfg s.mem = true → Memory.wf t.cfg t.mem = true
  index : t.index ≠ s.index → i.isGk = true

/-- `PC + 2 + 0xFFFE` is `PC` again (R183). -/
theorem advance_back (w : Word) : w + 2#16 + 65534#16 = w := by
  rw [BitVec.add_assoc]; simp

/-- A raised fault has the effects of its instruction (R205). -/
theorem execEffect_raise {i : Instr} {s : State} {k : Fault} (hi : ¬ (i = .cls ∨ ∃ x y n, i = .drw x y n))
    (h : (∃ nnn, i = .call nnn ∧ k = .stackOverflow ∧ s.sp.val = 16) ∨
      (i = .ret ∧ k = .stackUnderflow ∧ s.sp.val = 0) ∨
      (∃ x, (i = .skp x ∨ i = .sknp x) ∧ k = .outOfBoundsAccess ∧ 16 ≤ (s.reg x).toNat)) :
    ExecEffect i s (s.raise k) where
  cfg := rfl
  keys := rfl
  status := .inr (.inr ⟨k, rfl, h⟩)
  render := by simpa using hi
  disp := fun hn => absurd rfl hn
  dt := fun hn => absurd rfl hn
  st := fun hn => absurd rfl hn
  sp := fun hn => absurd rfl hn
  stack := fun hn => absurd rfl hn
  mem := fun hn => absurd rfl hn
  wf := id
  index := fun hn => absurd rfl hn

/-- THE EFFECTS OF AN INSTRUCTION. -/
theorem exec_effect {i : Instr} {s t : State} (h : exec i s = .next t) : ExecEffect i s t := by
  cases i
  case ret =>
    simp only [exec, execRet] at h
    split at h
    · cases h; constructor <;> simp
    · rename_i hsp
      cases h
      exact execEffect_raise (by simp) (.inr (.inl ⟨rfl, rfl, by simpa using hsp⟩))
  case call nnn =>
    simp only [exec, execCall] at h
    split at h
    · cases h; constructor <;> simp
    · rename_i hsp
      cases h
      exact execEffect_raise (by simp) (.inl ⟨nnn, rfl, rfl, by simp at hsp; omega⟩)
  case skp x =>
    simp only [exec, execSkp] at h
    split at h
    · cases h; constructor <;> simp
    · rename_i hk
      cases h
      exact execEffect_raise (by simp) (.inr (.inr ⟨x, .inl rfl, rfl, keyNumber_none.1 hk⟩))
  case sknp x =>
    simp only [exec, execSknp] at h
    split at h
    · cases h; constructor <;> simp
    · rename_i hk
      cases h
      exact execEffect_raise (by simp) (.inr (.inr ⟨x, .inr rfl, rfl, keyNumber_none.1 hk⟩))
  case ldBVx x =>
    cases h
    constructor <;> try simp [Instr.isGk]
    exact fun hw => Memory.writeBytes_wf _ hw
  case ldMemVx x =>
    cases h
    constructor <;> try simp [Instr.isGk]
    exact fun hw => Memory.writeBytes_wf _ hw
  case ldVxMem x =>
    obtain ⟨v, hv⟩ := State.loadRegs_eq (regsThrough x) s.advance
    simp only [exec, execLdVxMem, hv] at h
    cases h
    constructor <;> simp [Instr.isGk]
  all_goals
    cases h
    constructor <;> simp [Instr.isGk, advance_back]

/-- A waiting step writes Vx, PC, `status` and the render output alone (R184). -/
theorem awaitKeyStep_kept (x : RegIdx) (snap : Keys) (s : State) :
    (awaitKeyStep x snap s).cfg = s.cfg ∧ (awaitKeyStep x snap s).keys = s.keys ∧
      (awaitKeyStep x snap s).mem = s.mem ∧ (awaitKeyStep x snap s).dt = s.dt ∧ (awaitKeyStep x snap s).st = s.st ∧
      (awaitKeyStep x snap s).sp = s.sp ∧ (awaitKeyStep x snap s).stack = s.stack ∧
      (awaitKeyStep x snap s).disp = s.disp ∧ (awaitKeyStep x snap s).index = s.index ∧
      (awaitKeyStep x snap s).render = false := by
  rcases awaitKeyStep_eq x snap s with ⟨k, -, h⟩ | ⟨-, h⟩ <;> rw [h] <;> simp

/-- A raised fault is precise (R205). -/
theorem raise_faultedFrom (s : State) (k : Fault) : FaultedFrom k s (s.raise k) := by
  refine ⟨fun p hp => ?_, rfl, rfl⟩
  cases p <;> simp_all [Part.Same, among]

/-- What no part of two transitions in a row touches is kept by both. -/
theorem part_same_trans {p : Part} {s t u : State} (h : p.Same s t) (h' : p.Same t u) : p.Same s u := by
  cases p <;> exact Eq.trans h' h

/-- PC after an instruction that may skip (R139). -/
theorem skipIf_pc_toNat (s : State) (c : Bool) :
    (s.advance.skipIf c).pc.toNat = (s.pc.toNat + if c = true then 4 else 2) % 65536 := by
  cases c <;> simp [BitVec.toNat_add]

/-- The frame of an instruction that may skip. -/
theorem skipIf_changesOnly (s : State) (c : Bool) : ChangesOnly (among [.pc, .render]) s (s.advance.skipIf c) := by
  intro p hp
  cases p <;> simp_all [Part.Same, among]

/-- The frame of an instruction that writes one register. -/
theorem setReg_changesOnly (s : State) (x : RegIdx) (b : Byte) :
    ChangesOnly (among [.reg x, .pc, .render]) s (s.advance.setReg x b) := by
  intro p hp
  cases p <;> simp_all [Part.Same, among, eq_comm]

/-- The frame of an instruction that writes a register and the flag. -/
theorem setRegFlag_changesOnly (s : State) (x : RegIdx) (b f : Byte) :
    ChangesOnly (among [.reg x, .reg vf, .pc, .render]) s (s.advance.setRegFlag x b f) := by
  intro p hp
  cases p <;> simp_all [Part.Same, among, eq_comm]

theorem flagByte_toNat (b : Bool) : (flagByte b).toNat = flagNat (b = true) := by cases b <;> rfl

end Sys2Proof.Machine
end

