-- ==== Sys2Proof/Laws/PerInstr.lean ====
section
/-! SUPPORT. Statements made of every instruction, one lemma per constructor. -/

namespace Sys2Proof.Laws

/-- The fixed bits of an instruction's row in spec/opcode_table.json: each entry a high bit, a low bit and the value there. -/
def OpcodeRow.rowFixed : Instr → List (Nat × Nat × Nat)
  | .cls => [(15, 0, 0xE0)]
  | .ret => [(15, 0, 0xEE)]
  | .jp _ => [(15, 12, 0x1)]
  | .call _ => [(15, 12, 0x2)]
  | .seVxByte _ _ => [(15, 12, 0x3)]
  | .sneVxByte _ _ => [(15, 12, 0x4)]
  | .seVxVy _ _ => [(3, 0, 0x0), (15, 12, 0x5)]
  | .ldVxByte _ _ => [(15, 12, 0x6)]
  | .addVxByte _ _ => [(15, 12, 0x7)]
  | .ldVxVy _ _ => [(3, 0, 0x0), (15, 12, 0x8)]
  | .orVxVy _ _ => [(3, 0, 0x1), (15, 12, 0x8)]
  | .andVxVy _ _ => [(3, 0, 0x2), (15, 12, 0x8)]
  | .xorVxVy _ _ => [(3, 0, 0x3), (15, 12, 0x8)]
  | .addVxVy _ _ => [(3, 0, 0x4), (15, 12, 0x8)]
  | .sub _ _ => [(3, 0, 0x5), (15, 12, 0x8)]
  | .shr _ _ => [(3, 0, 0x6), (15, 12, 0x8)]
  | .subn _ _ => [(3, 0, 0x7), (15, 12, 0x8)]
  | .shl _ _ => [(3, 0, 0xE), (15, 12, 0x8)]
  | .sneVxVy _ _ => [(3, 0, 0x0), (15, 12, 0x9)]
  | .ldI _ => [(15, 12, 0xA)]
  | .jpV0 _ => [(15, 12, 0xB)]
  | .rnd _ _ => [(15, 12, 0xC)]
  | .drw _ _ _ => [(15, 12, 0xD)]
  | .skp _ => [(7, 0, 0x9E), (15, 12, 0xE)]
  | .sknp _ => [(7, 0, 0xA1), (15, 12, 0xE)]
  | .ldVxDt _ => [(7, 0, 0x7), (15, 12, 0xF)]
  | .ldVxK _ => [(7, 0, 0xA), (15, 12, 0xF)]
  | .ldDtVx _ => [(7, 0, 0x15), (15, 12, 0xF)]
  | .ldStVx _ => [(7, 0, 0x18), (15, 12, 0xF)]
  | .addIVx _ => [(7, 0, 0x1E), (15, 12, 0xF)]
  | .ldFVx _ => [(7, 0, 0x29), (15, 12, 0xF)]
  | .ldBVx _ => [(7, 0, 0x33), (15, 12, 0xF)]
  | .ldMemVx _ => [(7, 0, 0x55), (15, 12, 0xF)]
  | .ldVxMem _ => [(7, 0, 0x65), (15, 12, 0xF)]

/-- The instruction's word holds its row's fixed bits (30_encoding R72, R76). -/
def OpcodeRow.Statement (i : Instr) : Prop :=
  ∀ f ∈ OpcodeRow.rowFixed i, (encode i).toNat / 2 ^ f.2.1 % 2 ^ (f.1 + 1 - f.2.1) = f.2.2

theorem OpcodeRow.cls : OpcodeRow.Statement (.cls) := by
  unfold OpcodeRow.Statement OpcodeRow.rowFixed; decide

theorem OpcodeRow.ret : OpcodeRow.Statement (.ret) := by
  unfold OpcodeRow.Statement OpcodeRow.rowFixed; decide

theorem OpcodeRow.jp (nnn : Addr) : OpcodeRow.Statement (.jp nnn) := by
  simp only [OpcodeRow.Statement, OpcodeRow.rowFixed, encode, wordNNN_toNat, BitVec.toNat_ofNat, List.mem_cons, List.not_mem_nil,
    or_false, forall_eq]
  omega

theorem OpcodeRow.call (nnn : Addr) : OpcodeRow.Statement (.call nnn) := by
  simp only [OpcodeRow.Statement, OpcodeRow.rowFixed, encode, wordNNN_toNat, BitVec.toNat_ofNat, List.mem_cons, List.not_mem_nil,
    or_false, forall_eq]
  omega

theorem OpcodeRow.seVxByte (x : RegIdx) (nn : Byte) : OpcodeRow.Statement (.seVxByte x nn) := by
  simp only [OpcodeRow.Statement, OpcodeRow.rowFixed, encode, wordXNN_toNat, BitVec.toNat_ofNat, List.mem_cons, List.not_mem_nil,
    or_false, forall_eq]
  omega

theorem OpcodeRow.sneVxByte (x : RegIdx) (nn : Byte) : OpcodeRow.Statement (.sneVxByte x nn) := by
  simp only [OpcodeRow.Statement, OpcodeRow.rowFixed, encode, wordXNN_toNat, BitVec.toNat_ofNat, List.mem_cons, List.not_mem_nil,
    or_false, forall_eq]
  omega

theorem OpcodeRow.seVxVy (x y : RegIdx) : OpcodeRow.Statement (.seVxVy x y) := by
  simp only [OpcodeRow.Statement, OpcodeRow.rowFixed, encode, wordXYN_toNat, BitVec.toNat_ofNat, List.mem_cons, List.not_mem_nil,
    or_false, forall_eq_or_imp, forall_eq]
  omega

theorem OpcodeRow.ldVxByte (x : RegIdx) (nn : Byte) : OpcodeRow.Statement (.ldVxByte x nn) := by
  simp only [OpcodeRow.Statement, OpcodeRow.rowFixed, encode, wordXNN_toNat, BitVec.toNat_ofNat, List.mem_cons, List.not_mem_nil,
    or_false, forall_eq]
  omega

theorem OpcodeRow.addVxByte (x : RegIdx) (nn : Byte) : OpcodeRow.Statement (.addVxByte x nn) := by
  simp only [OpcodeRow.Statement, OpcodeRow.rowFixed, encode, wordXNN_toNat, BitVec.toNat_ofNat, List.mem_cons, List.not_mem_nil,
    or_false, forall_eq]
  omega

theorem OpcodeRow.ldVxVy (x y : RegIdx) : OpcodeRow.Statement (.ldVxVy x y) := by
  simp only [OpcodeRow.Statement, OpcodeRow.rowFixed, encode, wordXYN_toNat, BitVec.toNat_ofNat, List.mem_cons, List.not_mem_nil,
    or_false, forall_eq_or_imp, forall_eq]
  omega

theorem OpcodeRow.orVxVy (x y : RegIdx) : OpcodeRow.Statement (.orVxVy x y) := by
  simp only [OpcodeRow.Statement, OpcodeRow.rowFixed, encode, wordXYN_toNat, BitVec.toNat_ofNat, List.mem_cons, List.not_mem_nil,
    or_false, forall_eq_or_imp, forall_eq]
  omega

theorem OpcodeRow.andVxVy (x y : RegIdx) : OpcodeRow.Statement (.andVxVy x y) := by
  simp only [OpcodeRow.Statement, OpcodeRow.rowFixed, encode, wordXYN_toNat, BitVec.toNat_ofNat, List.mem_cons, List.not_mem_nil,
    or_false, forall_eq_or_imp, forall_eq]
  omega

theorem OpcodeRow.xorVxVy (x y : RegIdx) : OpcodeRow.Statement (.xorVxVy x y) := by
  simp only [OpcodeRow.Statement, OpcodeRow.rowFixed, encode, wordXYN_toNat, BitVec.toNat_ofNat, List.mem_cons, List.not_mem_nil,
    or_false, forall_eq_or_imp, forall_eq]
  omega

theorem OpcodeRow.addVxVy (x y : RegIdx) : OpcodeRow.Statement (.addVxVy x y) := by
  simp only [OpcodeRow.Statement, OpcodeRow.rowFixed, encode, wordXYN_toNat, BitVec.toNat_ofNat, List.mem_cons, List.not_mem_nil,
    or_false, forall_eq_or_imp, forall_eq]
  omega

theorem OpcodeRow.sub (x y : RegIdx) : OpcodeRow.Statement (.sub x y) := by
  simp only [OpcodeRow.Statement, OpcodeRow.rowFixed, encode, wordXYN_toNat, BitVec.toNat_ofNat, List.mem_cons, List.not_mem_nil,
    or_false, forall_eq_or_imp, forall_eq]
  omega

theorem OpcodeRow.shr (x y : RegIdx) : OpcodeRow.Statement (.shr x y) := by
  simp only [OpcodeRow.Statement, OpcodeRow.rowFixed, encode, wordXYN_toNat, BitVec.toNat_ofNat, List.mem_cons, List.not_mem_nil,
    or_false, forall_eq_or_imp, forall_eq]
  omega

theorem OpcodeRow.subn (x y : RegIdx) : OpcodeRow.Statement (.subn x y) := by
  simp only [OpcodeRow.Statement, OpcodeRow.rowFixed, encode, wordXYN_toNat, BitVec.toNat_ofNat, List.mem_cons, List.not_mem_nil,
    or_false, forall_eq_or_imp, forall_eq]
  omega

theorem OpcodeRow.shl (x y : RegIdx) : OpcodeRow.Statement (.shl x y) := by
  simp only [OpcodeRow.Statement, OpcodeRow.rowFixed, encode, wordXYN_toNat, BitVec.toNat_ofNat, List.mem_cons, List.not_mem_nil,
    or_false, forall_eq_or_imp, forall_eq]
  omega

theorem OpcodeRow.sneVxVy (x y : RegIdx) : OpcodeRow.Statement (.sneVxVy x y) := by
  simp only [OpcodeRow.Statement, OpcodeRow.rowFixed, encode, wordXYN_toNat, BitVec.toNat_ofNat, List.mem_cons, List.not_mem_nil,
    or_false, forall_eq_or_imp, forall_eq]
  omega

theorem OpcodeRow.ldI (nnn : Addr) : OpcodeRow.Statement (.ldI nnn) := by
  simp only [OpcodeRow.Statement, OpcodeRow.rowFixed, encode, wordNNN_toNat, BitVec.toNat_ofNat, List.mem_cons, List.not_mem_nil,
    or_false, forall_eq]
  omega

theorem OpcodeRow.jpV0 (nnn : Addr) : OpcodeRow.Statement (.jpV0 nnn) := by
  simp only [OpcodeRow.Statement, OpcodeRow.rowFixed, encode, wordNNN_toNat, BitVec.toNat_ofNat, List.mem_cons, List.not_mem_nil,
    or_false, forall_eq]
  omega

theorem OpcodeRow.rnd (x : RegIdx) (nn : Byte) : OpcodeRow.Statement (.rnd x nn) := by
  simp only [OpcodeRow.Statement, OpcodeRow.rowFixed, encode, wordXNN_toNat, BitVec.toNat_ofNat, List.mem_cons, List.not_mem_nil,
    or_false, forall_eq]
  omega

theorem OpcodeRow.drw (x y : RegIdx) (n : BitVec 4) : OpcodeRow.Statement (.drw x y n) := by
  simp only [OpcodeRow.Statement, OpcodeRow.rowFixed, encode, wordXYN_toNat, BitVec.toNat_ofNat, List.mem_cons, List.not_mem_nil,
    or_false, forall_eq]
  omega

theorem OpcodeRow.skp (x : RegIdx) : OpcodeRow.Statement (.skp x) := by
  simp only [OpcodeRow.Statement, OpcodeRow.rowFixed, encode, wordXNN_toNat, BitVec.toNat_ofNat, List.mem_cons, List.not_mem_nil,
    or_false, forall_eq_or_imp, forall_eq]
  omega

theorem OpcodeRow.sknp (x : RegIdx) : OpcodeRow.Statement (.sknp x) := by
  simp only [OpcodeRow.Statement, OpcodeRow.rowFixed, encode, wordXNN_toNat, BitVec.toNat_ofNat, List.mem_cons, List.not_mem_nil,
    or_false, forall_eq_or_imp, forall_eq]
  omega

theorem OpcodeRow.ldVxDt (x : RegIdx) : OpcodeRow.Statement (.ldVxDt x) := by
  simp only [OpcodeRow.Statement, OpcodeRow.rowFixed, encode, wordXNN_toNat, BitVec.toNat_ofNat, List.mem_cons, List.not_mem_nil,
    or_false, forall_eq_or_imp, forall_eq]
  omega

theorem OpcodeRow.ldVxK (x : RegIdx) : OpcodeRow.Statement (.ldVxK x) := by
  simp only [OpcodeRow.Statement, OpcodeRow.rowFixed, encode, wordXNN_toNat, BitVec.toNat_ofNat, List.mem_cons, List.not_mem_nil,
    or_false, forall_eq_or_imp, forall_eq]
  omega

theorem OpcodeRow.ldDtVx (x : RegIdx) : OpcodeRow.Statement (.ldDtVx x) := by
  simp only [OpcodeRow.Statement, OpcodeRow.rowFixed, encode, wordXNN_toNat, BitVec.toNat_ofNat, List.mem_cons, List.not_mem_nil,
    or_false, forall_eq_or_imp, forall_eq]
  omega

theorem OpcodeRow.ldStVx (x : RegIdx) : OpcodeRow.Statement (.ldStVx x) := by
  simp only [OpcodeRow.Statement, OpcodeRow.rowFixed, encode, wordXNN_toNat, BitVec.toNat_ofNat, List.mem_cons, List.not_mem_nil,
    or_false, forall_eq_or_imp, forall_eq]
  omega

theorem OpcodeRow.addIVx (x : RegIdx) : OpcodeRow.Statement (.addIVx x) := by
  simp only [OpcodeRow.Statement, OpcodeRow.rowFixed, encode, wordXNN_toNat, BitVec.toNat_ofNat, List.mem_cons, List.not_mem_nil,
    or_false, forall_eq_or_imp, forall_eq]
  omega

theorem OpcodeRow.ldFVx (x : RegIdx) : OpcodeRow.Statement (.ldFVx x) := by
  simp only [OpcodeRow.Statement, OpcodeRow.rowFixed, encode, wordXNN_toNat, BitVec.toNat_ofNat, List.mem_cons, List.not_mem_nil,
    or_false, forall_eq_or_imp, forall_eq]
  omega

theorem OpcodeRow.ldBVx (x : RegIdx) : OpcodeRow.Statement (.ldBVx x) := by
  simp only [OpcodeRow.Statement, OpcodeRow.rowFixed, encode, wordXNN_toNat, BitVec.toNat_ofNat, List.mem_cons, List.not_mem_nil,
    or_false, forall_eq_or_imp, forall_eq]
  omega

theorem OpcodeRow.ldMemVx (x : RegIdx) : OpcodeRow.Statement (.ldMemVx x) := by
  simp only [OpcodeRow.Statement, OpcodeRow.rowFixed, encode, wordXNN_toNat, BitVec.toNat_ofNat, List.mem_cons, List.not_mem_nil,
    or_false, forall_eq_or_imp, forall_eq]
  omega

theorem OpcodeRow.ldVxMem (x : RegIdx) : OpcodeRow.Statement (.ldVxMem x) := by
  simp only [OpcodeRow.Statement, OpcodeRow.rowFixed, encode, wordXNN_toNat, BitVec.toNat_ofNat, List.mem_cons, List.not_mem_nil,
    or_false, forall_eq_or_imp, forall_eq]
  omega

end Sys2Proof.Laws
end

