-- ==== Sys2Proof/Tests/Slice0.lean ====
section
/-! SUPPORT. The model's own tests: the well-formedness checks, one written-out word for each instruction, single steps taken
from the vectors of spec/95 (named in each comment), and a witness for the hypotheses of each statement. -/

namespace Sys2Proof.Tests

open Sys2Proof.Machine

/-- The reference state of spec/95 with a word at 0x200, given as its two bytes, and what the vector lists as different. -/
def start (hi lo : Byte) (f : State → State) : State := f (State.reset.storeBytes 0x200 [hi, lo])

/-- A changed configuration. -/
def withCfg (f : Config → Config) (s : State) : State := { s with cfg := f s.cfg }

/-- A stack of `n` return addresses, all 0x0202. -/
def withStack (n : StackPtr) (s : State) : State := { s with sp := n, stack := Vector.replicate 16 0x0202 }

/-- One display cell set. -/
def withCell (px : Fin 64) (py : Fin 32) (s : State) : State :=
  { s with disp := s.disp.set py.val (s.disp[py.val].set px.val true) }

/-- No key pressed. -/
def noKeys : Keys := Vector.replicate 16 false

/-- Exactly one key pressed. -/
def oneKey (k : RegIdx) : Keys := noKeys.set k.val true

/-- One step answers a next state, and it has the property. -/
def stepGives (s : State) (p : State → Bool) : Bool :=
  match step s with
  | .next t => p t
  | .fault _ => false
  | .refused _ => false

/-- The fault record a vector writes as Faulted with kind, word, pc and sp. -/
def record (kind : Fault) (word pc : Word) (sp : StackPtr) : Status :=
  .faulted { kind := kind, word := word, pc := pc, sp := sp }

/-! ## Well-formedness: each check refuses an ill-formed term -/

/-- R79: a core without the GK opcodes has none of the nine. -/
theorem test_wellFormed_refuses_gk :
    ([.ldI 0x123, .ldVxDt 1, .ldDtVx 1, .ldStVx 1, .addIVx 1, .ldFVx 1, .ldBVx 1, .ldMemVx 1, .ldVxMem 1] : List Instr).all
      (fun i => !i.wellFormed .disabled && i.wellFormed .enabled) = true := by decide

/-- R79, vector E24: FX0A is no GK opcode. -/
theorem test_wellFormed_keeps_ldVxK : (Instr.ldVxK 1).wellFormed .disabled = true := by decide

/-- R196: a font that would reach 0x200 does not fit; one that ends at 0x1FF does. -/
theorem test_fontFits : { Config.default with fontBase := 0x1B1 }.fontFits = false ∧
    { Config.default with fontBase := 0x1B0 }.fontFits = true := by decide

/-- The canonical form refuses addresses out of order, twice, or outside memory, and a byte equal to the background. -/
theorem test_memory_wf_refuses :
    Memory.wf Config.default [(0x301, 1), (0x300, 1)] = false ∧ Memory.wf Config.default [(0x300, 1), (0x300, 2)] = false ∧
    Memory.wf Config.default [(4096, 1)] = false ∧ Memory.wf Config.default [(0x300, 0)] = false ∧
    Memory.wf Config.default [(0x000, 0xF0)] = false ∧ Memory.wf Config.default [(0x000, 0), (0xFFF, 1)] = true := by decide

/-- Writing back what an unlisted address reads as removes the entry. -/
theorem test_memory_write_background :
    ((State.reset.storeBytes 0x000 [0x11]).storeBytes 0x000 [0xF0]).mem = State.reset.mem := by decide

/-! ## Decoding: words written out bit by bit from R76 -/

theorem test_decode_fixed :
    decode .enabled 0b0000_0000_1110_0000#16 = .ok .cls ∧ decode .enabled 0b0000_0000_1110_1110#16 = .ok .ret := by decide

theorem test_decode_nnn :
    decode .enabled 0b0001_0010_0011_0100#16 = .ok (.jp 0x234) ∧ decode .enabled 0b0010_1010_1011_1100#16 = .ok (.call 0xABC) ∧
    decode .enabled 0b1010_0010_1111_0000#16 = .ok (.ldI 0x2F0) ∧
    decode .enabled 0b1011_0011_0000_0001#16 = .ok (.jpV0 0x301) := by decide

theorem test_decode_byte_operand :
    decode .enabled 0b0011_0101_0001_0010#16 = .ok (.seVxByte 5 0x12) ∧
    decode .enabled 0b0100_0101_0001_0011#16 = .ok (.sneVxByte 5 0x13) ∧
    decode .enabled 0b0110_1010_0001_0010#16 = .ok (.ldVxByte 0xA 0x12) ∧
    decode .enabled 0b0111_0001_1111_1110#16 = .ok (.addVxByte 1 0xFE) ∧
    decode .enabled 0b1100_0011_0000_1111#16 = .ok (.rnd 3 0x0F) := by decide

theorem test_decode_register_skips :
    decode .enabled 0b0101_0001_0010_0000#16 = .ok (.seVxVy 1 2) ∧
    decode .enabled 0b1001_1110_0111_0000#16 = .ok (.sneVxVy 0xE 7) := by decide

theorem test_decode_eight :
    decode .enabled 0b1000_0001_0010_0000#16 = .ok (.ldVxVy 1 2) ∧ decode .enabled 0b1000_0001_0010_0001#16 = .ok (.orVxVy 1 2) ∧
    decode .enabled 0b1000_0001_0010_0010#16 = .ok (.andVxVy 1 2) ∧
    decode .enabled 0b1000_0001_0010_0011#16 = .ok (.xorVxVy 1 2) ∧
    decode .enabled 0b1000_0001_0010_0100#16 = .ok (.addVxVy 1 2) ∧ decode .enabled 0b1000_0001_0010_0101#16 = .ok (.sub 1 2) ∧
    decode .enabled 0b1000_0100_0010_0110#16 = .ok (.shr 4 2) ∧ decode .enabled 0b1000_0001_0010_0111#16 = .ok (.subn 1 2) ∧
    decode .enabled 0b1000_0001_0010_1110#16 = .ok (.shl 1 2) := by decide

theorem test_decode_draw : decode .enabled 0b1101_1111_0001_0101#16 = .ok (.drw 0xF 1 5) := by decide

theorem test_decode_keys :
    decode .enabled 0b1110_0010_1001_1110#16 = .ok (.skp 2) ∧ decode .enabled 0b1110_0010_1010_0001#16 = .ok (.sknp 2) := by decide

theorem test_decode_misc :
    decode .enabled 0b1111_0011_0000_0111#16 = .ok (.ldVxDt 3) ∧ decode .enabled 0b1111_0101_0000_1010#16 = .ok (.ldVxK 5) ∧
    decode .enabled 0b1111_0011_0001_0101#16 = .ok (.ldDtVx 3) ∧ decode .enabled 0b1111_0011_0001_1000#16 = .ok (.ldStVx 3) ∧
    decode .enabled 0b1111_1111_0001_1110#16 = .ok (.addIVx 0xF) ∧ decode .enabled 0b1111_0000_0010_1001#16 = .ok (.ldFVx 0) ∧
    decode .enabled 0b1111_0000_0011_0011#16 = .ok (.ldBVx 0) ∧ decode .enabled 0b1111_1111_0101_0101#16 = .ok (.ldMemVx 0xF) ∧
    decode .enabled 0b1111_0010_0110_0101#16 = .ok (.ldVxMem 2) := by decide

/-- Vectors E1, E4, E5, E6, E8 to E11, E14, E16, E18, E21, E22, E23: each is rejected, at the level R80 gives. -/
theorem test_decode_rejects :
    ([0x0000, 0x00E1, 0x0123, 0x00FF] : List Word).all (fun w => decode .enabled w = .error .zeroGroup) = true ∧
    decode .enabled 0x5121#16 = .error .fiveGroup ∧
    ([0x8128, 0x812D, 0x812F] : List Word).all (fun w => decode .enabled w = .error .eightGroup) = true ∧
    decode .enabled 0x9121#16 = .error .nineGroup ∧ decode .enabled 0xE19F#16 = .error .keyGroup ∧
    ([0xF100, 0xF1FF, 0xF175] : List Word).all (fun w => decode .enabled w = .error .miscGroup) = true ∧
    decode .disabled 0xA123#16 = .error .gkDisabled := by decide

/-- R70, R52: two bytes, the high one first; one byte is no instruction; the table's numbering gives the same word. -/
theorem test_decode_bytes :
    decodeBytes .enabled [0x6A, 0x12, 0xFF] = .ok (.ldVxByte 0xA 0x12, [0xFF]) ∧
    decodeBytes .enabled [0x6A] = .error .truncated ∧ decodeTableWord 16 0x6A12 = some (.ldVxByte 0xA 0x12) ∧
    encodeBytes (.ldVxByte 0xA 0x12) = [0x6A, 0x12] := by decide

/-! ## The step: vectors of section 2 -/

/-- W1. -/
theorem test_step_set_register :
    stepGives (start 0x6A 0x12 id) (fun t => t.reg 0xA = 0x12 && t.pc = 0x202 && t.render = false) = true := by decide

/-- F6: the second byte of the word at 0xFFF comes from 0x000, and PC wraps. -/
theorem test_step_fetch_wraps :
    stepGives { withCfg (fun c => { c with oddPcPolicy := .allow }) ((State.reset.storeBytes 0xFFF [0x60]).storeBytes 0x000 [0x01])
      with pc := 0xFFFF } (fun t => t.reg 0 = 0x01 && t.pc = 0x0001) = true := by decide

/-- F3: the word at 0x1000 is fetched from 0x000, where the font stands. -/
theorem test_step_fetches_masked :
    stepGives { State.reset with pc := 0x1000 } (fun t => t.status = record .unrecognizedOpcode 0xF090 0x1000 0) = true := by
  decide

/-- Z2, Z3: MisalignedPC comes before UnrecognizedOpcode; under ALLOW only the latter is left. -/
theorem test_step_fault_priority :
    stepGives { State.reset.storeBytes 0x201 [0x51, 0x21] with pc := 0x201 }
      (fun t => t.status = record .misalignedPC 0x5121 0x201 0 && t.pc = 0x201) = true ∧
    stepGives (withCfg (fun c => { c with oddPcPolicy := .allow }) { State.reset.storeBytes 0x201 [0x51, 0x21] with pc := 0x201 })
      (fun t => t.status = record .unrecognizedOpcode 0x5121 0x201 0) = true := by decide

/-- F8, F9: a faulted core keeps its record under a step and loses one from DT under a tick. -/
theorem test_step_faulted :
    stepGives { State.reset with status := record .stackUnderflow 0x00EE 0x200 0, render := true }
      (fun t => t.status = record .stackUnderflow 0x00EE 0x200 0 && t.render = false && t.pc = 0x200) = true ∧
    (tick { State.reset with status := record .stackUnderflow 0x00EE 0x200 0, dt := 3 }).dt = 2 := by decide

/-- W7b, W7c: 3585 bytes give no core; 0 bytes give one whose first step faults on the word 0. -/
theorem test_load :
    load Config.default (List.replicate 3585 0) = .error .romTooLarge ∧
    (match load Config.default [] with
      | .ok s => stepGives s (fun t => t.status = record .unrecognizedOpcode 0x0000 0x200 0)
      | .error _ => false) = true :=
  ⟨by unfold load; rw [List.length_replicate]; rfl, by decide⟩

/-- A placed word is what the very next step runs, from a faulted core at an odd PC too. -/
theorem test_withFetchWord :
    stepGives (State.withFetchWord { State.reset with pc := 0x301, status := record .misalignedPC 0 0x301 0 } 16 0x6A12)
      (fun t => t.reg 0xA = 0x12 && t.pc = 0x302) = true := by decide

/-! ## Register moves, arithmetic, skips, random: vectors of sections 3 and 4 -/

/-- A2. -/
theorem test_ldVxByte_vf : stepGives (start 0x6F 0x00 (·.setReg 0xF 1)) (fun t => t.reg 0xF = 0) = true := by decide

/-- W2a. -/
theorem test_addVxByte_wraps :
    stepGives (start 0x71 0x01 fun s => (s.setReg 1 0xFF).setReg 0xF 0x55) (fun t => t.reg 1 = 0 && t.reg 0xF = 0x55) = true := by
  decide

/-- A4. -/
theorem test_addVxByte_vf : stepGives (start 0x7F 0x01 (·.setReg 0xF 1)) (fun t => t.reg 0xF = 2) = true := by decide

/-- A5. -/
theorem test_ldVxVy : stepGives (start 0x81 0x20 (·.setReg 2 0x9C)) (fun t => t.reg 1 = 0x9C && t.reg 2 = 0x9C) = true := by
  decide

/-- A6, A7, A8. -/
theorem test_logic :
    stepGives (start 0x81 0x21 fun s => ((s.setReg 1 0xF0).setReg 2 0x0F).setReg 0xF 0x55)
      (fun t => t.reg 1 = 0xFF && t.reg 0xF = 0x55) = true ∧
    stepGives (start 0x81 0x22 fun s => ((s.setReg 1 0xF0).setReg 2 0x3C).setReg 0xF 0x55)
      (fun t => t.reg 1 = 0x30 && t.reg 0xF = 0x55) = true ∧
    stepGives (start 0x81 0x23 fun s => ((s.setReg 1 0xF0).setReg 2 0x3C).setReg 0xF 0x55)
      (fun t => t.reg 1 = 0xCC && t.reg 0xF = 0x55) = true := by decide

/-- W2b, A10. -/
theorem test_addVxVy_carry :
    stepGives (start 0x81 0x24 fun s => ((s.setReg 1 0xFF).setReg 2 0x01).setReg 0xF 0x55)
      (fun t => t.reg 1 = 0 && t.reg 0xF = 1) = true ∧
    stepGives (start 0x81 0x24 fun s => ((s.setReg 1 0x7F).setReg 2 0x01).setReg 0xF 0x55)
      (fun t => t.reg 1 = 0x80 && t.reg 0xF = 0) = true := by decide

/-- A12, A13. -/
theorem test_addVxVy_vf_operand :
    stepGives (start 0x8F 0x24 fun s => (s.setReg 2 0x01).setReg 0xF 0xFF) (fun t => t.reg 0xF = 1) = true ∧
    stepGives (start 0x81 0xF4 fun s => (s.setReg 1 0x10).setReg 0xF 0x01) (fun t => t.reg 1 = 0x11 && t.reg 0xF = 0) = true := by
  decide

/-- A15, A17. -/
theorem test_sub :
    stepGives (start 0x81 0x25 fun s => ((s.setReg 1 3).setReg 2 5).setReg 0xF 0x55)
      (fun t => t.reg 1 = 0xFE && t.reg 0xF = 0) = true ∧
    stepGives (start 0x8F 0x25 fun s => (s.setReg 2 1).setReg 0xF 0x10) (fun t => t.reg 0xF = 1) = true := by decide

/-- A16, with both values of the parameter. -/
theorem test_sub_equal :
    stepGives (start 0x81 0x25 fun s => ((s.setReg 1 7).setReg 2 7).setReg 0xF 0x55) (fun t => t.reg 1 = 0 && t.reg 0xF = 0) = true ∧
    stepGives (withCfg (fun c => { c with subVfOnEqual := true }) (start 0x81 0x25 fun s => (s.setReg 1 7).setReg 2 7))
      (fun t => t.reg 1 = 0 && t.reg 0xF = 1) = true := by decide

/-- A18, A19, A20. -/
theorem test_subn :
    stepGives (start 0x81 0x27 fun s => (s.setReg 1 3).setReg 2 5) (fun t => t.reg 1 = 2 && t.reg 0xF = 1) = true ∧
    stepGives (start 0x81 0x27 fun s => ((s.setReg 1 5).setReg 2 3).setReg 0xF 0x55)
      (fun t => t.reg 1 = 0xFE && t.reg 0xF = 0) = true ∧
    stepGives (start 0x81 0x27 fun s => ((s.setReg 1 7).setReg 2 7).setReg 0xF 0x55) (fun t => t.reg 1 = 0 && t.reg 0xF = 0) = true := by
  decide

/-- A23, A24. -/
theorem test_shr :
    stepGives (start 0x84 0x26 fun s => (s.setReg 4 5).setReg 2 0xFF) (fun t => t.reg 4 = 2 && t.reg 2 = 0xFF && t.reg 0xF = 1) = true ∧
    stepGives (start 0x8F 0x06 (·.setReg 0xF 3)) (fun t => t.reg 0xF = 1) = true := by decide

/-- A25, A26, A28. -/
theorem test_shl :
    stepGives (start 0x84 0x0E (·.setReg 4 0x81)) (fun t => t.reg 4 = 2 && t.reg 0xF = 1) = true ∧
    stepGives (start 0x84 0x0E fun s => (s.setReg 4 0x7F).setReg 0xF 0x55) (fun t => t.reg 4 = 0xFE && t.reg 0xF = 0) = true ∧
    stepGives (start 0x8F 0x0E (·.setReg 0xF 1)) (fun t => t.reg 0xF = 0) = true := by decide

/-- S1, S2, S10. -/
theorem test_seVxByte :
    stepGives (start 0x31 0x12 (·.setReg 1 0x12)) (fun t => t.pc = 0x204) = true ∧
    stepGives (start 0x31 0x13 (·.setReg 1 0x12)) (fun t => t.pc = 0x202) = true ∧
    stepGives ({ State.reset.storeBytes 0xFFC [0x30, 0x00] with pc := 0xFFFC }) (fun t => t.pc = 0x0000) = true := by decide

/-- S3, S4. -/
theorem test_sneVxByte :
    stepGives (start 0x41 0x12 (·.setReg 1 0x12)) (fun t => t.pc = 0x202) = true ∧
    stepGives (start 0x41 0x13 (·.setReg 1 0x12)) (fun t => t.pc = 0x204) = true := by decide

/-- S5, S6, S9. -/
theorem test_seVxVy :
    stepGives (start 0x51 0x20 fun s => (s.setReg 1 7).setReg 2 7) (fun t => t.pc = 0x204) = true ∧
    stepGives (start 0x51 0x20 fun s => (s.setReg 1 7).setReg 2 8) (fun t => t.pc = 0x202) = true ∧
    stepGives (start 0x51 0x10 id) (fun t => t.pc = 0x204) = true := by decide

/-- S7, S8. -/
theorem test_sneVxVy :
    stepGives (start 0x91 0x20 fun s => (s.setReg 1 7).setReg 2 7) (fun t => t.pc = 0x202) = true ∧
    stepGives (start 0x91 0x20 fun s => (s.setReg 1 7).setReg 2 8) (fun t => t.pc = 0x204) = true := by decide

/-- S13, S14: nothing of the byte drawn with the mask 0x00, all of it with 0xFF, whatever it is. -/
theorem test_rnd (s t u : State) (h : exec (.rnd 3 0x00) s = .next t) (h' : exec (.rnd 3 0xFF) s = .next u) :
    t.reg 3 = 0 ∧ u.reg 3 = Config.randomByte s.draws := by
  cases h
  cases h'
  exact ⟨by simp [State.setReg, State.reg], by
    simpa [State.setReg, State.reg, State.draw8] using BitVec.and_allOnes (x := Config.randomByte s.draws)⟩

/-! ## Control flow: vectors of section 5 -/

/-- J1. -/
theorem test_jp : stepGives (start 0x1A 0xBC id) (fun t => t.pc = 0x0ABC && t.sp = 0) = true := by decide

/-- J4: the sum is kept unmasked. -/
theorem test_jpV0 : stepGives (start 0xBF 0xFF (·.setReg 0 0xFF)) (fun t => t.pc = 0x10FE) = true := by decide

/-- C1, C2. -/
theorem test_call :
    stepGives (start 0x23 0x00 id) (fun t => t.slot 0 = 0x202 && t.sp = 1 && t.pc = 0x300) = true ∧
    stepGives (start 0x23 0x00 fun s => { s with sp := 15 }) (fun t => t.slot 15 = 0x202 && t.sp = 16 && t.pc = 0x300) = true := by
  decide

/-- Z1. -/
theorem test_call_overflow :
    stepGives (start 0x23 0x00 (withStack 16))
      (fun t => t.status = record .stackOverflow 0x2300 0x200 16 && t.pc = 0x200 && t.sp = 16 && t.slot 0 = 0x202) = true := by
  decide

/-- C5. -/
theorem test_ret :
    stepGives (start 0x00 0xEE fun s => { s with sp := 1, stack := s.stack.set 0 0x0456 })
      (fun t => t.sp = 0 && t.pc = 0x0456 && t.slot 0 = 0x0456) = true := by decide

/-- C6. -/
theorem test_ret_underflow :
    stepGives (start 0x00 0xEE id) (fun t => t.status = record .stackUnderflow 0x00EE 0x200 0 && t.pc = 0x200) = true := by decide

/-! ## Display: vectors of section 6 -/

/-- G1. -/
theorem test_cls :
    stepGives (start 0x00 0xE0 fun s => (withCell 63 31 (withCell 0 0 s)).setReg 0xF 0x55)
      (fun t => t.disp = clearDisplay && t.reg 0xF = 0x55 && t.render) = true := by decide

/-- G5: clipped at both edges. -/
theorem test_drw_clips :
    stepGives (start 0xD0 0x13 fun s => (((s.storeBytes 0x300 [0xFF, 0xFF, 0xFF]).setIndex 0x300).setReg 0 62).setReg 1 30)
      (fun t => t.disp.cell 62 30 && t.disp.cell 63 30 && t.disp.cell 62 31 && t.disp.cell 63 31 && !t.disp.cell 0 30
        && !t.disp.cell 62 0 && t.reg 0xF = 0 && t.render) = true := by decide

/-- G9, G13, W4b: a collision; the coordinate is the old VF; the draw of W4a again, on the two cells it set. -/
theorem test_drw_collides :
    stepGives (start 0xD0 0x11 fun s => withCell 2 3 ((((s.storeBytes 0x300 [0xC0]).setIndex 0x300).setReg 0 2).setReg 1 3))
      (fun t => !t.disp.cell 2 3 && t.disp.cell 3 3 && t.reg 0xF = 1) = true ∧
    stepGives (start 0xDF 0x11 fun s => ((s.storeBytes 0x300 [0x80]).setIndex 0x300).setReg 0xF 5)
      (fun t => t.disp.cell 5 0 && t.reg 0xF = 0) = true ∧
    stepGives (start 0xD0 0x11 fun s =>
        withCell 3 3 (withCell 2 3 ((((s.storeBytes 0x300 [0xC0]).setIndex 0x300).setReg 0 2).setReg 1 3)))
      (fun t => t.disp = clearDisplay && t.reg 0xF = 1 && t.render) = true := by decide

/-! ## Timers: vectors of section 7 -/

/-- T1, T2. -/
theorem test_tick :
    (tick { State.reset with st := 5 }).dt = 0 ∧ (tick { State.reset with st := 5 }).st = 4 ∧
    (tick { State.reset with dt := 1, st := 1 }).dt = 0 ∧ (tick { State.reset with dt := 1, st := 1 }).toneActive = false := by
  decide

/-- T5, T10. -/
theorem test_ldVxDt :
    stepGives (start 0xF3 0x07 (·.setDelay 0x3C)) (fun t => t.reg 3 = 0x3C && t.dt = 0x3C) = true ∧
    stepGives (withCfg (fun c => { c with gkOpcodes := .disabled }) (start 0xF3 0x07 (·.setDelay 0x3C)))
      (fun t => t.status = record .unrecognizedOpcode 0xF307 0x200 0 && t.reg 3 = 0) = true := by decide

/-- T6. -/
theorem test_ldDtVx : stepGives (start 0xF3 0x15 (·.setReg 3 0x3C)) (fun t => t.dt = 0x3C && t.st = 0) = true := by decide

/-- T7, T8. -/
theorem test_ldStVx :
    stepGives (start 0xF3 0x18 (·.setReg 3 2)) (fun t => t.st = 2 && t.dt = 0 && t.toneActive) = true ∧
    stepGives (start 0xF0 0x18 (·.setSound 9)) (fun t => t.st = 0 && !t.toneActive) = true := by decide

/-! ## Key input: vectors of section 8 -/

/-- K1, K2, K5. -/
theorem test_skp :
    stepGives (start 0xE2 0x9E fun s => writeKeys (oneKey 0xA) (s.setReg 2 0x0A)) (fun t => t.pc = 0x204) = true ∧
    stepGives (start 0xE2 0x9E (·.setReg 2 0x0A)) (fun t => t.pc = 0x202) = true ∧
    stepGives (start 0xE2 0x9E (·.setReg 2 0x10)) (fun t => t.status = record .outOfBoundsAccess 0xE29E 0x200 0) = true := by decide

/-- K3, K4, K6. -/
theorem test_sknp :
    stepGives (start 0xE2 0xA1 (·.setReg 2 0x0A)) (fun t => t.pc = 0x204) = true ∧
    stepGives (start 0xE2 0xA1 fun s => writeKeys (oneKey 0xA) (s.setReg 2 0x0A)) (fun t => t.pc = 0x202) = true ∧
    stepGives (start 0xE2 0xA1 (·.setReg 2 0xFF)) (fun t => t.status = record .outOfBoundsAccess 0xE2A1 0x200 0) = true := by decide

/-- K7, and step 1 of K10: the baseline is the Key State at the instruction. -/
theorem test_ldVxK :
    stepGives (start 0xF3 0x0A id) (fun t => t.pc = 0x200 && t.status = .awaitingKey 3 noKeys && t.reg 3 = 0) = true ∧
    stepGives (start 0xF3 0x0A (writeKeys (oneKey 5))) (fun t => t.status = .awaitingKey 3 (oneKey 5)) = true := by decide

/-- K8, step 2 of K10 and of K11, step 3 of K10. -/
theorem test_awaiting_step :
    stepGives { State.reset with status := .awaitingKey 3 noKeys, keys := (oneKey 9).set 3 true }
      (fun t => t.reg 3 = 3 && t.pc = 0x202 && t.status = .running) = true ∧
    stepGives { State.reset with status := .awaitingKey 3 (oneKey 5), keys := oneKey 5 }
      (fun t => t.status = .awaitingKey 3 (oneKey 5) && t.pc = 0x200 && t.reg 3 = 0) = true ∧
    stepGives (withCfg (fun c => { c with keyWaitTrigger := .level })
      { State.reset with status := .awaitingKey 3 (oneKey 5), keys := oneKey 5 })
      (fun t => t.reg 3 = 5 && t.pc = 0x202 && t.status = .running) = true ∧
    stepGives { State.reset with status := .awaitingKey 3 (oneKey 5) } (fun t => t.status = .awaitingKey 3 noKeys) = true := by decide

/-! ## Index register and memory: vectors of section 9 -/

/-- X1. -/
theorem test_ldI : stepGives (start 0xA2 0xF0 id) (fun t => t.index = 0x02F0) = true := by decide

/-- X2, X3. -/
theorem test_addIVx :
    stepGives (start 0xF0 0x1E fun s => (s.setIndex 0x0FFF).setReg 0 2) (fun t => t.index = 0x1001 && t.reg 0xF = 0) = true ∧
    stepGives (start 0xF0 0x1E fun s => ((s.setIndex 0xFFFF).setReg 0 1).setReg 0xF 0x55)
      (fun t => t.index = 0 && t.reg 0xF = 0x55) = true := by decide

/-- X5, X6. -/
theorem test_ldFVx :
    stepGives (start 0xF0 0x29 (·.setReg 0 0x1A)) (fun t => t.index = 0x0032) = true ∧
    stepGives (withCfg (fun c => { c with fontBase := 0x050 }) (start 0xF0 0x29 (·.setReg 0 0x0F))) (fun t => t.index = 0x009B) = true := by
  decide

/-- X8, X10. -/
theorem test_ldBVx :
    stepGives (start 0xF0 0x33 fun s => (s.setReg 0 0xFF).setIndex 0x300)
      (fun t => t.memRead 0x300 = 2 && t.memRead 0x301 = 5 && t.memRead 0x302 = 5 && t.index = 0x300) = true ∧
    stepGives (start 0xF0 0x33 fun s => (s.setReg 0 0x7B).setIndex 0xFFE)
      (fun t => t.memRead 0xFFE = 1 && t.memRead 0xFFF = 2 && t.memRead 0x000 = 3) = true := by decide

/-- X11, X12. -/
theorem test_ldMemVx :
    stepGives (start 0xF1 0x55 fun s => ((s.setReg 0 0xAB).setReg 1 0xCD).setIndex 0x300)
      (fun t => t.memRead 0x300 = 0xAB && t.memRead 0x301 = 0xCD && t.memRead 0x302 = 0 && t.index = 0x300) = true ∧
    stepGives (withCfg (fun c => { c with loadStoreIncrementsI := true })
      (start 0xF1 0x55 fun s => ((s.setReg 0 0xAB).setReg 1 0xCD).setIndex 0x300)) (fun t => t.index = 0x302) = true := by decide

/-- X15, X18. -/
theorem test_ldVxMem :
    stepGives (start 0xF2 0x65 fun s => (s.storeBytes 0x300 [1, 5, 6]).setIndex 0x300)
      (fun t => t.reg 0 = 1 && t.reg 1 = 5 && t.reg 2 = 6 && t.index = 0x300) = true ∧
    stepGives (start 0xF0 0x65 fun s => ((s.storeBytes 0x300 [0x42, 0x43]).setIndex 0x300).setReg 1 9)
      (fun t => t.reg 0 = 0x42 && t.reg 1 = 9) = true := by decide

/-! ## Witnesses: a state and operands that meet the hypotheses of each statement, clause by clause at its boundary -/

theorem test_witness_EncodeThenDecode :
    (Instr.ldVxMem 0xF).wellFormed .enabled = true ∧ (Instr.ldVxK 0xF).wellFormed .disabled = true := by decide

theorem test_witness_DecodeThenEncode :
    decode .enabled 0x84F6#16 = .ok (.shr 4 0xF) ∧ decode .disabled 0xFF0A#16 = .ok (.ldVxK 0xF) := by decide

theorem test_witness_StepRunsTheDecodedInstruction :
    (start 0x6A 0x12 id).status = .running ∧ Aligned (start 0x6A 0x12 id) ∧
      decode (start 0x6A 0x12 id).cfg.gkOpcodes (start 0x6A 0x12 id).fetchWord = .ok (.ldVxByte 0xA 0x12) :=
  ⟨rfl, fun _ => rfl, by decide⟩

theorem test_witness_PlacedWordIsRun :
    CanonicalMemory { State.reset with pc := 0xFFFF, mem := [(0xFFF, 1)] } ∧
      decode State.reset.cfg.gkOpcodes (tableWord 16 0xD125) = .ok (.drw 1 2 5) := ⟨by unfold CanonicalMemory; decide, by decide⟩

theorem test_witness_UnrecognizedWordFaults :
    State.reset.status = .running ∧ Aligned State.reset ∧ Unrecognized State.reset.cfg.gkOpcodes State.reset.fetchWord.toNat :=
  ⟨rfl, fun _ => rfl, .inl (by decide)⟩

/-- Each item of R80's list has a word. -/
theorem test_witness_Unrecognized_each :
    Unrecognized .enabled 0x00E1 ∧ Unrecognized .enabled 0x5001 ∧ Unrecognized .enabled 0x900F ∧ Unrecognized .enabled 0x8008 ∧
    Unrecognized .enabled 0xE19F ∧ Unrecognized .enabled 0xF1FF ∧ Unrecognized .disabled 0xF107 ∧ Unrecognized .disabled 0xAFFF ∧
    ¬ Unrecognized .enabled 0xAFFF ∧ ¬ Unrecognized .disabled 0xF10A ∧ ¬ Unrecognized .enabled 0x00EE := by
  simp [Unrecognized]

theorem test_witness_OddPcFaultsBeforeDecode :
    State.reset.status = .running ∧ ¬ Aligned { State.reset with pc := 0x201 } := ⟨rfl, by unfold Aligned; decide⟩

theorem test_witness_FaultsArePrecise :
    State.reset.status = .running ∧ exec .ret State.reset = .next (State.reset.raise .stackUnderflow) ∧
      (State.reset.raise .stackUnderflow).status = record .stackUnderflow 0x0000 0x200 0 := ⟨rfl, rfl, by decide⟩

theorem test_witness_RenderReportsDrawing :
    stepGives (start 0xD0 0x10 id) (fun t => t.render) = true ∧ stepGives (start 0x60 0x00 id) (fun t => !t.render) = true := by decide

theorem test_witness_ResetValues :
    Config.default.fontFits = true ∧ { Config.default with fontBase := 0x1B0 }.fontFits = true := by decide

theorem test_witness_LoadPlacesTheRom :
    3584 < (List.replicate 3585 (0 : Byte)).length ∧ (List.replicate 3584 (0 : Byte)).length ≤ 3584 ∧
      3583 < (List.replicate 3584 (0 : Byte)).length ∧ ([] : List Byte).length ≤ 3584 := by
  simp only [List.length_replicate, List.length_nil]; decide

theorem test_witness_RegisterSkipsAddTwo : (1 : BitVec 4) ≠ 0 ∧ (0xF : BitVec 4) ≠ 0 := by decide

theorem test_witness_CallPushesOrOverflows :
    State.reset.sp.val = (0 : Fin 16).val ∧ (withStack 15 State.reset).sp.val = (15 : Fin 16).val ∧
      (withStack 16 State.reset).sp.val = 16 := by decide

theorem test_witness_RetPopsOrUnderflows :
    (withStack 1 State.reset).sp.val = (0 : Fin 16).val + 1 ∧ (withStack 16 State.reset).sp.val = (15 : Fin 16).val + 1 ∧
      State.reset.sp.val = 0 := by decide

/-- Sixteen calls fit on an empty stack, one on a stack of fifteen; that one fills it. -/
theorem test_witness_NestedCallsReturn :
    State.reset.sp.val + (0x300 :: List.replicate 15 (0x300 : Addr)).length ≤ 16 ∧
    (withStack 15 State.reset).sp.val + ([0x300] : List Addr).length ≤ 16 ∧
    (match callChain [0x300] (withStack 15 State.reset) with
      | .next t => decide (t.sp.val = 16)
      | .fault _ => false
      | .refused _ => false) = true := by decide

theorem test_witness_OnlyCallAndRetTouchTheStack :
    stepGives (start 0x23 0x00 id) (fun t => decide (t.sp ≠ State.reset.sp) && decide (t.stack ≠ State.reset.stack)) = true ∧
    stepGives (start 0x00 0xEE (withStack 1)) (fun t => decide (t.sp ≠ 1)) = true := by decide

/-- The start of W4 (V0 = 2, V1 = 3, one row 0xC0 at 0x300). -/
def drawState : State := (((State.reset.storeBytes 0x300 [0xC0]).setIndex 0x300).setReg 0 2).setReg 1 3

/-- A draw keeps the coordinates when they are not VF; one with VF as a coordinate keeps it when there is no collision. -/
theorem test_witness_DrawingTwiceRestores :
    (match exec (.drw 0 1 1) drawState with
      | .next t => decide (t.reg 0 = drawState.reg 0) && decide (t.reg 1 = drawState.reg 1)
      | .fault _ => false
      | .refused _ => false) = true ∧
    (match exec (.drw 0xF 0xF 0) State.reset with
      | .next t => decide (t.reg 0xF = State.reset.reg 0xF)
      | .fault _ => false
      | .refused _ => false) = true := by decide

theorem test_witness_DrawingTwiceRestores_invisible : ¬ spriteVisible (drawState.setReg 0 64) 64 3 1 := by
  rintro ⟨px, py, h⟩
  have hx : 64 ≤ px.val := by simp only [spriteBit, Bool.and_eq_true, decide_eq_true_eq] at h; exact h.1.1.1.1
  omega

theorem test_witness_SecondDrawCollidesWhateverWasThere : spriteVisible drawState 2 3 1 := ⟨2, 3, by decide⟩

/-- The same draw, in the upper left corner and in the lower right one: the first draw reports no collision. -/
theorem test_witness_SecondDrawCollidesOnWhatTheFirstSet :
    (match exec (.drw 0 1 1) drawState with
      | .next t => decide (t.reg 0 = drawState.reg 0) && decide (t.reg 1 = drawState.reg 1) && decide (t.reg vf = 0)
      | .fault _ => false
      | .refused _ => false) = true ∧
    (match exec (.drw 0 1 1) ((drawState.setReg 0 63).setReg 1 31) with
      | .next t => decide (t.reg 0 = 63) && decide (t.reg 1 = 31) && decide (t.reg vf = 0)
      | .fault _ => false
      | .refused _ => false) = true ∧
    spriteVisible drawState 2 3 1 ∧ spriteVisible ((drawState.setReg 0 63).setReg 1 31) 63 31 1 :=
  ⟨by decide, by decide, ⟨2, 3, by decide⟩, ⟨63, 31, by decide⟩⟩

theorem test_witness_OnlyClsAndDrwWriteTheDisplay :
    stepGives (start 0x00 0xE0 (withCell 0 0)) (fun t => decide (t.disp ≠ (withCell 0 0 State.reset).disp)) = true := by decide

theorem test_witness_StepsWriteTimersOnlyByTheirLoads :
    stepGives (start 0xFF 0x15 (·.setReg 0xF 255)) (fun t => decide (t.dt ≠ 0)) = true ∧
    stepGives (start 0xF0 0x18 (·.setReg 0 1)) (fun t => decide (t.st ≠ 0)) = true := by decide

theorem test_witness_KeySkipsTestTheLevel :
    (State.reset.reg 1).toNat = (0 : RegIdx).val ∧ ((State.reset.setReg 1 0xF).reg 1).toNat = (15 : RegIdx).val ∧
      16 ≤ ((State.reset.setReg 1 0x10).reg 1).toNat := by decide

/-- A core that waits for register 3, with its baseline and the keys pressed now. -/
def waiting (snap keys : Keys) : State := { State.reset with status := .awaitingKey 3 snap, keys := keys }

/-- Key 0 newly pressed, at the low end; key 15 newly pressed while key 0 is held, at the high end. -/
theorem test_witness_WaitingStepPollsTheKeys_detects :
    (waiting noKeys (oneKey 0)).status = .awaitingKey 3 noKeys ∧
    ((waiting noKeys (oneKey 0)).key 0 = true ∧
      ((waiting noKeys (oneKey 0)).cfg.keyWaitTrigger = .edge → noKeys[(0 : RegIdx).val] = false)) ∧
    ((waiting (oneKey 0) ((oneKey 0).set 15 true)).key 15 = true ∧
      ((waiting (oneKey 0) ((oneKey 0).set 15 true)).cfg.keyWaitTrigger = .edge → (oneKey 0)[(15 : RegIdx).val] = false)) ∧
    ∀ j : RegIdx, j < 15 → ¬ ((waiting (oneKey 0) ((oneKey 0).set 15 true)).key j = true ∧
      ((waiting (oneKey 0) ((oneKey 0).set 15 true)).cfg.keyWaitTrigger = .edge → (oneKey 0)[j.val] = false)) := by decide

/-- A held key under LEVEL is detected. -/
theorem test_witness_WaitingStepPollsTheKeys_level :
    (waiting (oneKey 0) (oneKey 0)).key 0 = true ∧
      ((withCfg (fun c => { c with keyWaitTrigger := .level }) (waiting (oneKey 0) (oneKey 0))).cfg.keyWaitTrigger = .edge →
        (oneKey 0)[(0 : RegIdx).val] = false) := by decide

/-- A held key under EDGE is not. -/
theorem test_witness_WaitingStepPollsTheKeys_none :
    ∀ k : RegIdx, ¬ ((waiting (oneKey 0) (oneKey 0)).key k = true ∧
      ((waiting (oneKey 0) (oneKey 0)).cfg.keyWaitTrigger = .edge → (oneKey 0)[k.val] = false)) := by decide

/-- Schedules of every kind of move that press nothing. -/
theorem test_witness_WaitingLastsWhileNoKeyIsPressed :
    { State.reset with status := .awaitingKey 5 noKeys }.status = .awaitingKey 5 noKeys ∧ (∀ k, State.reset.key k = false) ∧
      ∀ m ∈ [Move.step, .tick, .keys noKeys], pressesNothing m := by
  refine ⟨rfl, by decide, fun m hm => ?_⟩
  simp only [List.mem_cons, List.not_mem_nil, or_false] at hm
  rcases hm with rfl | rfl | rfl
  · trivial
  · trivial
  · show ∀ k : RegIdx, noKeys[k.val] = false
    decide

theorem test_witness_OnlyTheHostWritesTheKeys :
    applyMove .tick State.reset = .next (tick State.reset) ∧ ∀ ks, Move.tick ≠ .keys ks := ⟨rfl, by simp⟩

theorem test_witness_LdBVxStoresTheDecimalDigits : CanonicalMemory { State.reset with index := 0xFFFE, mem := [(0xFFE, 7)] } := by
  unfold CanonicalMemory; decide

theorem test_witness_LdMemVxStoresTheRegisters :
    CanonicalMemory { State.reset with index := 0x0FF8, mem := [(0x000, 0), (0xFFF, 7)] } ∧ (0xF : RegIdx) ≤ 0xF :=
  ⟨by unfold CanonicalMemory; decide, le_refl _⟩

theorem test_witness_OnlyTwoInstructionsWriteMemory :
    stepGives (start 0xF0 0x33 fun s => (s.setReg 0 0x9C).setIndex 0x300)
      (fun t => decide (t.mem ≠ (start 0xF0 0x33 id).mem)) = true ∧
    stepGives (start 0xF0 0x55 fun s => (s.setReg 0 0x9C).setIndex 0x300)
      (fun t => decide (t.mem ≠ (start 0xF0 0x55 id).mem)) = true := by decide

theorem test_witness_IndexIsFrozenWithoutGkOpcodes :
    (withCfg (fun c => { c with gkOpcodes := .disabled }) (start 0xA2 0xF0 id)).cfg.gkOpcodes = .disabled ∧
      stepGives (withCfg (fun c => { c with gkOpcodes := .disabled }) (start 0xA2 0xF0 id)) (fun t => t.index = 0) = true := by decide

theorem test_witness_EqualReadsEqualMemories :
    Memory.wf Config.default [(0x000, 0), (0xFFF, 1)] = true ∧
      ∀ a < 4096, Memory.read (backgroundByte Config.default) [(0x000, 0), (0xFFF, 1)] a =
        Memory.read (backgroundByte Config.default) [(0x000, 0), (0xFFF, 1)] a := ⟨by decide, fun _ _ => rfl⟩

theorem test_witness_PartsDetermineTheState :
    CanonicalMemory drawState ∧ ∀ p : Part, p.Same drawState drawState :=
  ⟨by unfold CanonicalMemory; decide, fun p => by cases p <;> rfl⟩

/-- J2, for both statements about a core at rest. -/
theorem test_witness_AtRest : (start 0x12 0x00 (·.setDelay 255)).atRest = true ∧ (start 0x12 0x02 id).atRest = false := by decide

theorem test_witness_FaultedIsTerminal :
    (start 0x00 0xEE (·.raise .stackUnderflow)).status = record .stackUnderflow 0x00EE 0x200 0 := by decide

/-- The invariant's three run states: a step from each is meant. -/
theorem test_witness_EveryStepKeepsTheInvariant :
    CoreInvariant State.reset ∧ CoreInvariant (start 0xF3 0x0A (·.setStatus (.awaitingKey 3 noKeys))) ∧
      CoreInvariant (start 0x00 0xEE (·.raise .stackUnderflow)) :=
  ⟨⟨rfl, trivial⟩, ⟨by unfold CanonicalMemory; decide, fun _ => rfl, by decide⟩,
    ⟨by unfold CanonicalMemory; decide, rfl, rfl, rfl, fun _ => rfl, rfl, by decide⟩⟩

theorem test_witness_EveryScheduleOfALoadedCoreMeetsTheInvariant :
    load Config.default [0x12, 0x00] = .ok (State.reset.storeBytes 0x200 [0x12, 0x00]) := rfl

end Sys2Proof.Tests
end

