-- ==== Sys2Proof/Proofs/Fetch.lean ====
section
/-! The fetched word (40_fetch_decode R102): two byte reads, each address masked on its own. -/

namespace Sys2Proof.Machine

/-- An access masks its address itself (R51), so masking it beforehand reads the same byte. -/
@[simp] theorem State.memRead_mod (s : State) (a : Nat) : s.memRead (a % 4096) = s.memRead a := by
  simp only [State.memRead, mask12, Nat.mod_mod]

/-- The word at an address is big-endian (R52). -/
theorem State.wordAt_toNat (s : State) (a : Nat) :
    (s.wordAt a).toNat = (s.memRead a).toNat * 256 + (s.memRead (a + 1)).toNat :=
  wordOfBytes_toNat _ _

end Sys2Proof.Machine

namespace Sys2Proof.Proofs

open Sys2Proof.Machine

/-- Settles O5: the fetch is the big-endian word at `PC`, and the mask of each read absorbs the statement's own. -/
theorem fetchReadsTwoMaskedBytes : Obligations.FetchReadsTwoMaskedBytes := by
  intro s
  rw [State.memRead_mod, State.memRead_mod]
  exact s.wordAt_toNat s.pc.toNat

end Sys2Proof.Proofs
end

