-- ==== Sys2Proof/Proofs/AluSkip.lean ====
section
/-! Register moves, logic without a flag, and the skips on an immediate (41_alu_skip R120 to R125, R131, R132). Each instruction
ends in one of two shared ways: it writes one register and falls through, or it may skip one word. -/

namespace Sys2Proof.Machine

/-- What is known of the answered state may be weakened. -/
theorem completes_mono {w : Word} {i : Instr} {s : State} {touched : Part → Prop} {post post' : State → Prop}
    (h : Completes w i s touched post) (hpost : ∀ t, post t → post' t) : Completes w i s touched post' := by
  obtain ⟨hdecode, t, hexec, hframe, ht⟩ := h
  exact ⟨hdecode, t, hexec, hframe, hpost t ht⟩

/-- `PC` after the start of an instruction (R103). -/
theorem advance_pc_toNat (s : State) : s.advance.pc.toNat = (s.pc.toNat + 2) % 65536 := by
  simp [BitVec.toNat_add]

/-- An instruction that writes `b` to `Vx` and nothing else of its own falls through, whichever register `x` is. -/
theorem completes_of_exec_setReg {w : Word} {i : Instr} {s : State} {x : RegIdx} {b : Byte}
    (hdecode : decode .enabled w = .ok i) (hexec : exec i s = .next (s.advance.setReg x b)) :
    Completes w i s (among [.reg x, .pc, .render]) (fun t => t.reg x = b ∧ FallsThrough s t) :=
  ⟨hdecode, _, hexec, setReg_changesOnly s x b, by simp, advance_pc_toNat s⟩

/-- An instruction that skips under `c` moves `PC` by 4 or by 2 and writes no register (R139). -/
theorem completes_of_exec_skipIf {w : Word} {i : Instr} {s : State} {c : Bool}
    (hdecode : decode .enabled w = .ok i) (hexec : exec i s = .next (s.advance.skipIf c)) :
    Completes w i s (among [.pc, .render]) (fun t => t.pc.toNat = (s.pc.toNat + if c = true then 4 else 2) % 65536) :=
  ⟨hdecode, _, hexec, skipIf_changesOnly s c, skipIf_pc_toNat s c⟩

/-- Writing one register, for a result that is known bit by bit. -/
theorem completes_of_exec_setReg_bits {w : Word} {i : Instr} {s : State} {x : RegIdx} {b : Byte} {bit : Nat → Bool}
    (hdecode : decode .enabled w = .ok i) (hexec : exec i s = .next (s.advance.setReg x b))
    (hbits : ∀ k, b.getLsbD k = bit k) :
    Completes w i s (among [.reg x, .pc, .render]) (fun t => (∀ k, (t.reg x).getLsbD k = bit k) ∧ FallsThrough s t) := by
  refine completes_mono (completes_of_exec_setReg hdecode hexec) fun t ⟨hreg, hpc⟩ => ⟨fun k => ?_, hpc⟩
  rw [hreg, hbits]

end Sys2Proof.Machine

namespace Sys2Proof.Proofs

open Sys2Proof.Machine

/-- Settles O16: the instruction is one register write of the immediate. -/
theorem ldVxByteLoadsTheImmediate : Obligations.LdVxByteLoadsTheImmediate := by
  intro s x nn
  have hdecode : decode .enabled (wordXNN 0x6 x nn) = .ok (.ldVxByte x nn) := by simp [decode]
  exact completes_of_exec_setReg hdecode rfl

/-- Settles O17: each of the four is one register write, and a bitwise operation on bytes is that operation on each bit. -/
theorem moveAndLogicOfRegisters : Obligations.MoveAndLogicOfRegisters := by
  intro s x y
  refine ⟨?ld, ?or, ?and, ?xor⟩
  case ld =>
    have hdecode : decode .enabled (wordXYN 0x8 x y 0x0) = .ok (.ldVxVy x y) := by simp [decode, decodeEight]
    exact completes_of_exec_setReg hdecode rfl
  case or =>
    have hdecode : decode .enabled (wordXYN 0x8 x y 0x1) = .ok (.orVxVy x y) := by simp [decode, decodeEight]
    exact completes_of_exec_setReg_bits hdecode rfl fun _ => BitVec.getLsbD_or
  case and =>
    have hdecode : decode .enabled (wordXYN 0x8 x y 0x2) = .ok (.andVxVy x y) := by simp [decode, decodeEight]
    exact completes_of_exec_setReg_bits hdecode rfl fun _ => BitVec.getLsbD_and
  case xor =>
    have hdecode : decode .enabled (wordXYN 0x8 x y 0x3) = .ok (.xorVxVy x y) := by simp [decode, decodeEight]
    exact completes_of_exec_setReg_bits hdecode rfl fun _ => BitVec.getLsbD_xor

/-- Settles O18: the instruction is one register write, of the sum of two bytes, which is taken modulo 256. -/
theorem addVxByteWrapsWithoutFlag : Obligations.AddVxByteWrapsWithoutFlag := by
  intro s x nn
  have hdecode : decode .enabled (wordXNN 0x7 x nn) = .ok (.addVxByte x nn) := by simp [decode]
  refine completes_mono (completes_of_exec_setReg hdecode rfl) fun t ⟨hreg, hpc⟩ => ⟨?_, hpc⟩
  rw [hreg, BitVec.toNat_add]

/-- Settles O23: both are the shared skip, on `Vx = nn` and on its negation. -/
theorem byteSkipsAddTwo : Obligations.ByteSkipsAddTwo := by
  intro s x nn
  constructor
  case left =>
    have hdecode : decode .enabled (wordXNN 0x3 x nn) = .ok (.seVxByte x nn) := by simp [decode]
    refine completes_mono (completes_of_exec_skipIf hdecode rfl) fun t hpc => ?_
    simpa only [beq_iff_eq] using hpc
  case right =>
    have hdecode : decode .enabled (wordXNN 0x4 x nn) = .ok (.sneVxByte x nn) := by simp [decode]
    refine completes_mono (completes_of_exec_skipIf hdecode rfl) fun t hpc => ?_
    simpa only [bne_iff_ne, ne_eq, ite_not] using hpc

end Sys2Proof.Proofs
end

