-- ==== Sys2Proof/Proofs/DisplayWriters.lean ====
section
/-! Who writes the display (43_display R165): of the ways a step can end, only an executed instruction can change it. -/

namespace Sys2Proof.Machine

/-- A step that changed the display ran CLS or DRW and raised no fault. -/
theorem step_disp_changed {s t : State} (h : step s = .next t) (hdisp : t.disp ≠ s.disp) :
    s.status = .running ∧ t.status = .running ∧
      ∃ i, decode s.cfg.gkOpcodes s.fetchWord = .ok i ∧ (i = .cls ∨ ∃ x y n, i = .drw x y n) := by
  obtain ⟨r, -, rfl⟩ | ⟨x, snap, -, rfl⟩ | ⟨-, k, -, rfl⟩ | ⟨hrunning, i, -, hdecode, hexec⟩ := step_cases h
  case inl => exact absurd (State.setRender_disp s false) hdisp
  case inr.inl =>
    obtain ⟨-, -, -, -, -, -, -, hkept, -⟩ := awaitKeyStep_kept x snap s
    exact absurd hkept hdisp
  case inr.inr.inl => exact absurd (State.raise_disp s k) hdisp
  case inr.inr.inr =>
    obtain ⟨hstatus, hwriter⟩ := (exec_effect hexec).disp hdisp
    exact ⟨hrunning, hstatus.trans hrunning, i, hdecode, hwriter⟩

end Sys2Proof.Machine

namespace Sys2Proof.Proofs

open Sys2Proof.Machine

/-- Settles O34: a tick and a key write keep the display, and a step changes it only by an instruction that writes it. -/
theorem onlyClsAndDrwWriteTheDisplay : Obligations.OnlyClsAndDrwWriteTheDisplay := by
  intro m s t h hdisp
  cases m with
  | step => exact ⟨rfl, step_disp_changed h hdisp⟩
  | tick =>
    cases h
    exact absurd (tick_disp s) hdisp
  | keys ks =>
    cases h
    exact absurd (writeKeys_disp ks s) hdisp

end Sys2Proof.Proofs
end

