-- ==== Sys2Proof/Proofs/GkDecode.lean ====
section
/-! What the decoder answers exists on its core (30_encoding R79): a GK opcode is read only under `GK_OPCODES = ENABLED`. -/

namespace Sys2Proof

/-- An instruction that is no GK opcode exists on every core. -/
theorem Instr.wellFormed_of_not_isGk {i : Instr} (h : i.isGk = false) (gk : GkOpcodes) : i.wellFormed gk = true := by
  cases gk <;> simp [Instr.wellFormed, h]

/-- A GK opcode exists only where the GK opcodes are enabled. -/
theorem Instr.enabled_of_wellFormed_isGk {gk : GkOpcodes} {i : Instr} (hwf : i.wellFormed gk = true) (hgk : i.isGk = true) :
    gk = .enabled := by
  cases gk with
  | enabled => rfl
  | disabled => simp [Instr.wellFormed, hgk] at hwf

/-- What the GK guard lets through exists on the core. -/
theorem gkOnly_wellFormed {gk : GkOpcodes} {i j : Instr} (h : gkOnly gk j = .ok i) : i.wellFormed gk = true := by
  cases gk with
  | enabled => rfl
  | disabled => cases h

theorem decodeZero_isGk {w : Word} {i : Instr} (h : decodeZero w = .ok i) : i.isGk = false := by
  unfold decodeZero at h
  split_ifs at h <;> cases h <;> rfl

theorem decodeEight_isGk {w : Word} {i : Instr} (h : decodeEight w = .ok i) : i.isGk = false := by
  unfold decodeEight at h
  split at h <;> cases h <;> rfl

theorem decodeKey_isGk {w : Word} {i : Instr} (h : decodeKey w = .ok i) : i.isGk = false := by
  unfold decodeKey at h
  split_ifs at h <;> cases h <;> rfl

/-- Op 0xF: FX0A exists on every core, the other selectors pass the GK guard. -/
theorem decodeMisc_wellFormed {gk : GkOpcodes} {w : Word} {i : Instr} (h : decodeMisc gk w = .ok i) :
    i.wellFormed gk = true := by
  unfold decodeMisc at h
  by_cases hwait : nnField w = 0x0A#8
  · have hi : i = .ldVxK (xField w) := by simpa [hwait, eq_comm] using h
    exact Instr.wellFormed_of_not_isGk (by rw [hi]; rfl) gk
  · simp only [hwait, if_false] at h
    split_ifs at h
    all_goals exact gkOnly_wellFormed h

/-- THE DECODER RESPECTS THE CORE (R79): what it answers exists under its `GK_OPCODES`. The decoder's arm for op `k` is the case
`h_(k+1)`; ops 0x5 and 0x9 test `n` first, and an arm not named answers one instruction outright, no GK opcode. -/
theorem decode_wellFormed {gk : GkOpcodes} {w : Word} {i : Instr} (h : decode gk w = .ok i) : i.wellFormed gk = true := by
  unfold decode at h
  split at h
  case h_1 => exact Instr.wellFormed_of_not_isGk (decodeZero_isGk h) gk
  case h_9 => exact Instr.wellFormed_of_not_isGk (decodeEight_isGk h) gk
  case h_11 => exact gkOnly_wellFormed h
  case h_15 => exact Instr.wellFormed_of_not_isGk (decodeKey_isGk h) gk
  case h_16 => exact decodeMisc_wellFormed h
  case h_6 | h_10 =>
    split at h <;> cases h
    exact Instr.wellFormed_of_not_isGk rfl gk
  all_goals
    cases h
    exact Instr.wellFormed_of_not_isGk rfl gk

/-- A core whose word decodes to a GK opcode has the GK opcodes. -/
theorem enabled_of_decode_isGk {gk : GkOpcodes} {w : Word} {i : Instr} (h : decode gk w = .ok i) (hgk : i.isGk = true) :
    gk = .enabled :=
  Instr.enabled_of_wellFormed_isGk (decode_wellFormed h) hgk

end Sys2Proof
end

