-- ==== Sys2Proof/Proofs/TimerWriters.lean ====
section
/-! Who writes the timers (44_timers R172): of the ways a step can end, only an executed instruction can change one. -/

namespace Sys2Proof.Machine

/-- A step that changed a timer executed an instruction. -/
theorem step_timer_changed {s t : State} (h : step s = .next t) (htimer : ¬ (t.dt = s.dt ∧ t.st = s.st)) :
    s.status = .running ∧ ∃ i, decode s.cfg.gkOpcodes s.fetchWord = .ok i ∧ exec i s = .next t := by
  obtain ⟨r, -, rfl⟩ | ⟨x, snap, -, rfl⟩ | ⟨-, k, -, rfl⟩ | ⟨hrunning, i, -, hdecode, hexec⟩ := step_cases h
  case inl => exact absurd ⟨State.setRender_dt s false, State.setRender_st s false⟩ htimer
  case inr.inl =>
    obtain ⟨-, -, -, hdt, hst, -⟩ := awaitKeyStep_kept x snap s
    exact absurd ⟨hdt, hst⟩ htimer
  case inr.inr.inl => exact absurd ⟨State.raise_dt s k, State.raise_st s k⟩ htimer
  case inr.inr.inr => exact ⟨hrunning, i, hdecode, hexec⟩

end Sys2Proof.Machine

namespace Sys2Proof.Proofs

open Sys2Proof.Machine

/-- Settles O37: the instruction that changed a timer is that timer's load, a GK opcode, so the core it decodes on has them. -/
theorem stepsWriteTimersOnlyByTheirLoads : Obligations.StepsWriteTimersOnlyByTheirLoads := by
  intro s t h
  refine ⟨fun hdt => ?delay, fun hst => ?sound⟩
  case delay =>
    obtain ⟨hrunning, i, hdecode, hexec⟩ := step_timer_changed h fun hkept => hdt hkept.1
    obtain ⟨x, rfl, hload⟩ := (exec_effect hexec).dt hdt
    exact ⟨hrunning, enabled_of_decode_isGk hdecode rfl, x, hdecode, hload⟩
  case sound =>
    obtain ⟨hrunning, i, hdecode, hexec⟩ := step_timer_changed h fun hkept => hst hkept.2
    obtain ⟨x, rfl, hload⟩ := (exec_effect hexec).st hst
    exact ⟨hrunning, enabled_of_decode_isGk hdecode rfl, x, hdecode, hload⟩

end Sys2Proof.Proofs
end

