-- ==== Sys2Proof/Proofs/Codec.lean ====
section
/-! Decoder and encoder (30_encoding R70 to R82): each direction of the round trip, and the words that decode to nothing. -/

namespace Sys2Proof

/-! ### decode after encode -/

/-- The GK guard lets an instruction through on every core that has it, if it is one of the nine. -/
theorem gkOnly_of_wellFormed {gk : GkOpcodes} {i : Instr} (hwf : i.wellFormed gk = true) (hgk : i.isGk = true) :
    gkOnly gk i = .ok i := by
  rw [Instr.enabled_of_wellFormed_isGk hwf hgk]
  rfl

/-- The word of an instruction decodes to it on every core that has it. -/
theorem decode_encode {gk : GkOpcodes} {i : Instr} (hwf : i.wellFormed gk = true) : decode gk (encode i) = .ok i := by
  cases i
  case cls | ret => rfl
  case ldI | ldVxDt | ldDtVx | ldStVx | addIVx | ldFVx | ldBVx | ldMemVx | ldVxMem =>
    simp [encode, decode, decodeMisc, gkOnly_of_wellFormed hwf rfl]
  case ldVxVy | orVxVy | andVxVy | xorVxVy | addVxVy | sub | shr | subn | shl => simp [encode, decode, decodeEight]
  case skp | sknp => simp [encode, decode, decodeKey]
  case ldVxK => simp [encode, decode, decodeMisc]
  all_goals simp [encode, decode]

/-- A core with the GK opcodes decodes every instruction's word. -/
theorem decode_enabled_encode (i : Instr) : decode .enabled (encode i) = .ok i := decode_encode rfl

/-- Reading from the front of a byte sequence reads the word of its first two bytes, in memory order (R52, R70). -/
theorem decodeBytes_bytes (gk : GkOpcodes) (w : Word) (rest : List Byte) :
    decodeBytes gk (highByte w :: lowByte w :: rest) = (decode gk w).map fun i => (i, rest) := by
  rw [decodeBytes, wordOfBytes_bytes]

/-! ### encode after decode -/

theorem wordNNN_of_opField {w : Word} {op : BitVec 4} (hop : opField w = op) : wordNNN op (nnnField w) = w := by
  rw [← hop, wordNNN_fields]

theorem wordXNN_of_opField {w : Word} {op : BitVec 4} (hop : opField w = op) : wordXNN op (xField w) (nnField w) = w := by
  rw [← hop, wordXNN_fields]

theorem wordXNN_of_fields {w : Word} {op : BitVec 4} {nn : Byte} (hop : opField w = op) (hnn : nnField w = nn) :
    wordXNN op (xField w) nn = w := by
  rw [← hnn, wordXNN_of_opField hop]

theorem wordXYN_of_opField {w : Word} {op : BitVec 4} (hop : opField w = op) :
    wordXYN op (xField w) (yField w) (nField w) = w := by
  rw [← hop, wordXYN_fields]

theorem wordXYN_of_fields {w : Word} {op n : BitVec 4} (hop : opField w = op) (hn : nField w = n) :
    wordXYN op (xField w) (yField w) n = w := by
  rw [← hn, wordXYN_of_opField hop]

/-- What the GK guard lets through is the guarded instruction. -/
theorem eq_of_gkOnly {gk : GkOpcodes} {i j : Instr} (h : gkOnly gk j = .ok i) : i = j := by
  cases gk <;> cases h
  rfl

theorem encode_of_decodeZero {w : Word} {i : Instr} (h : decodeZero w = .ok i) : encode i = w := by
  unfold decodeZero at h
  split_ifs at h with hcls hret <;> cases h
  · exact hcls.symm
  · exact hret.symm

theorem encode_of_decodeEight {w : Word} {i : Instr} (hop : opField w = 0x8#4) (h : decodeEight w = .ok i) :
    encode i = w := by
  unfold decodeEight at h
  dsimp only at h
  split at h <;> cases h
  all_goals
    rename_i hn
    exact wordXYN_of_fields hop (BitVec.eq_of_toNat_eq hn)

theorem encode_of_decodeKey {w : Word} {i : Instr} (hop : opField w = 0xE#4) (h : decodeKey w = .ok i) : encode i = w := by
  unfold decodeKey at h
  dsimp only at h
  split_ifs at h with hskp hsknp <;> cases h
  · exact wordXNN_of_fields hop hskp
  · exact wordXNN_of_fields hop hsknp

theorem encode_of_decodeMisc {gk : GkOpcodes} {w : Word} {i : Instr} (hop : opField w = 0xF#4)
    (h : decodeMisc gk w = .ok i) : encode i = w := by
  unfold decodeMisc at h
  by_cases hwait : nnField w = 0x0A#8
  · have hi : i = .ldVxK (xField w) := by simpa [hwait, eq_comm] using h
    rw [hi]
    exact wordXNN_of_fields hop hwait
  · simp only [hwait, if_false] at h
    split_ifs at h with h07 h15 h18 h1E h29 h33 h55 h65
    all_goals rw [eq_of_gkOnly h]
    exacts [wordXNN_of_fields hop h07, wordXNN_of_fields hop h15, wordXNN_of_fields hop h18, wordXNN_of_fields hop h1E,
      wordXNN_of_fields hop h29, wordXNN_of_fields hop h33, wordXNN_of_fields hop h55, wordXNN_of_fields hop h65]

/-- The decoder matches on the op field as a number. -/
theorem opField_of_toNat {w : Word} {k : Nat} (h : (opField w).toNat = k) : opField w = BitVec.ofNat 4 k := by
  rw [← h, BitVec.ofNat_toNat, BitVec.setWidth_eq]

/-- What decodes encodes back to the same word. The decoder's arm for op `k` is the case `h_(k+1)`; the last arm is op 0xF, the
one number left. -/
theorem encode_of_decode {gk : GkOpcodes} {w : Word} {i : Instr} (h : decode gk w = .ok i) : encode i = w := by
  unfold decode at h
  split at h
  case h_1 => exact encode_of_decodeZero h
  case h_6 hop | h_10 hop =>
    split at h <;> cases h
    exact wordXYN_of_fields (opField_of_toNat hop) ‹_›
  case h_9 hop => exact encode_of_decodeEight (opField_of_toNat hop) h
  case h_11 hop =>
    rw [eq_of_gkOnly h]
    exact wordNNN_of_opField (opField_of_toNat hop)
  case h_15 hop => exact encode_of_decodeKey (opField_of_toNat hop) h
  case h_16 =>
    simp only [imp_false] at *
    refine encode_of_decodeMisc (opField_of_toNat (k := 15) ?_) h
    have hlt := (opField w).isLt
    omega
  case h_14 hop => cases h; exact wordXYN_of_opField (opField_of_toNat hop)
  case h_2 hop | h_3 hop | h_12 hop => cases h; exact wordNNN_of_opField (opField_of_toNat hop)
  all_goals
    rename_i hop
    cases h
    exact wordXNN_of_opField (opField_of_toNat hop)

/-! ### the words that decode to nothing (R80) -/

theorem gkOnly_error (gk : GkOpcodes) (i : Instr) : (∃ r, gkOnly gk i = .error r) ↔ gk = .disabled := by
  cases gk <;> simp [gkOnly]

theorem decodeZero_error (w : Word) : (∃ r, decodeZero w = .error r) ↔ w.toNat ≠ 0x00E0 ∧ w.toNat ≠ 0x00EE := by
  unfold decodeZero
  simp only [← BitVec.toNat_inj, BitVec.reduceToNat]
  split_ifs <;> simp [*]

theorem decodeEight_error (w : Word) :
    (∃ r, decodeEight w = .error r) ↔ w.toNat % 16 ∈ [0x8, 0x9, 0xA, 0xB, 0xC, 0xD, 0xF] := by
  rw [← nField_toNat]
  unfold decodeEight
  dsimp only
  split
  case h_10 =>
    -- `split` gives the arms not taken as implications to `False`, which `omega` does not read
    have hlt := (nField w).isLt
    simp only [imp_false] at *
    simp
    omega
  all_goals simp [*]

theorem decodeKey_error (w : Word) : (∃ r, decodeKey w = .error r) ↔ w.toNat % 256 ∉ [0x9E, 0xA1] := by
  rw [← nnField_toNat]
  unfold decodeKey
  dsimp only
  simp only [← BitVec.toNat_inj, BitVec.reduceToNat]
  split_ifs <;> simp [*]

theorem decodeMisc_error (gk : GkOpcodes) (w : Word) : (∃ r, decodeMisc gk w = .error r) ↔
    w.toNat % 256 ∉ [0x07, 0x0A, 0x15, 0x18, 0x1E, 0x29, 0x33, 0x55, 0x65] ∨
      (gk = .disabled ∧ w.toNat % 256 ∈ [0x07, 0x15, 0x18, 0x1E, 0x29, 0x33, 0x55, 0x65]) := by
  rw [← nnField_toNat]
  unfold decodeMisc
  dsimp only
  simp only [← BitVec.toNat_inj, BitVec.reduceToNat]
  split_ifs <;> simp [gkOnly_error, *]

/-- THE REJECTED WORDS (R80), op by op. -/
theorem decode_error_iff (gk : GkOpcodes) (w : Word) : (∃ r, decode gk w = .error r) ↔ Unrecognized gk w.toNat := by
  have hop : w.toNat / 4096 = (opField w).toNat := by
    rw [opField_toNat]
    omega
  unfold decode
  split
  case h_1 h => simp [Unrecognized, hop, h, decodeZero_error]
  case h_9 h => simp [Unrecognized, hop, h, decodeEight_error]
  case h_11 h => simp [Unrecognized, hop, h, gkOnly_error]
  case h_15 h => simp [Unrecognized, hop, h, decodeKey_error]
  case h_16 =>
    simp only [imp_false] at *
    have h15 : (opField w).toNat = 15 := by
      have hlt := (opField w).isLt
      omega
    simp [Unrecognized, hop, h15, decodeMisc_error]
  case h_6 h | h_10 h =>
    have hn : nField w = 0 ↔ w.toNat % 16 = 0 := by rw [← nField_toNat, ← BitVec.toNat_inj]; rfl
    simp only [Unrecognized, hop, h, hn]
    split_ifs <;> simp [*]
  all_goals
    rename_i h
    simp [Unrecognized, hop, h]

end Sys2Proof

namespace Sys2Proof.Proofs

/-- Settles O1: each constructor's word decodes to it, and the bytes of a word read as that word. -/
theorem encodeThenDecode : Obligations.EncodeThenDecode := by
  intro gk i hwf
  refine ⟨decode_encode hwf, fun rest => ?_⟩
  have hbytes : encodeBytes i ++ rest = highByte (encode i) :: lowByte (encode i) :: rest := rfl
  rw [hbytes, decodeBytes_bytes, decode_encode hwf]
  rfl

/-- Settles O2: each arm of the decoder answers an instruction whose fields are the word's own. -/
theorem decodeThenEncode : Obligations.DecodeThenEncode :=
  fun _ _ _ h => ⟨encode_of_decode h, decode_wellFormed h⟩

/-- Settles O3: each arm of the decoder rejects what R80 lists for its op. -/
theorem rejectsExactlyTheUnrecognizedWords : Obligations.RejectsExactlyTheUnrecognizedWords :=
  decode_error_iff

/-- Settles O4: the words are literals, so the decoder runs on them. -/
theorem specWordsDecodeAsWritten : Obligations.SpecWordsDecodeAsWritten := by
  unfold Obligations.SpecWordsDecodeAsWritten
  decide

end Sys2Proof.Proofs
end

