-- ==== Sys2Proof/Proofs/Steps.lean ====
section
/-! One step (40_fetch_decode R100 to R108): that it answers, what a Running one answers, how it faults, and its render
output. -/

namespace Sys2Proof.Machine

/-! ### every step answers -/

/-- The state after a CALL that pushes (R152). -/
def afterCall (nnn : Addr) (s : State) (h : s.sp.val < 16) : State := (s.advance.push s.advance.pc h).setPc (zextAddr nnn)

/-- The state after a RET that pops (R153). -/
def afterRet (s : State) (h : 0 < s.sp.val) : State := (s.advance.pop h).2.setPc (s.advance.pop h).1

/-- CALL on a stack with room (R152). -/
theorem exec_call_of_room {s : State} (nnn : Addr) (h : s.sp.val < 16) : exec (.call nnn) s = .next (afterCall nnn s h) :=
  dif_pos h

/-- CALL on a full stack (R202). -/
theorem exec_call_of_full {s : State} (nnn : Addr) (h : s.sp.val = 16) :
    exec (.call nnn) s = .next (s.raise .stackOverflow) :=
  dif_neg (by simp [h])

/-- RET on a stack that holds an address (R153). -/
theorem exec_ret_of_pos {s : State} (h : 0 < s.sp.val) : exec .ret s = .next (afterRet s h) :=
  dif_pos h

/-- RET on an empty stack (R203). -/
theorem exec_ret_of_empty {s : State} (h : s.sp.val = 0) : exec .ret s = .next (s.raise .stackUnderflow) :=
  dif_neg (by simp [h])

theorem exec_skp_of_key {s : State} {x k : RegIdx} (h : (s.reg x).toNat = k.val) :
    exec (.skp x) s = .next (s.advance.skipIf (s.key k)) := by
  simp only [exec, execSkp, keyNumber_some.2 h]

theorem exec_sknp_of_key {s : State} {x k : RegIdx} (h : (s.reg x).toNat = k.val) :
    exec (.sknp x) s = .next (s.advance.skipIf (!s.key k)) := by
  simp only [exec, execSknp, keyNumber_some.2 h]

/-- SKP on a value that names no key (R204). -/
theorem exec_skp_of_no_key {s : State} {x : RegIdx} (h : 16 ≤ (s.reg x).toNat) :
    exec (.skp x) s = .next (s.raise .outOfBoundsAccess) := by
  simp only [exec, execSkp, keyNumber_none.2 h]

/-- SKNP on a value that names no key (R204). -/
theorem exec_sknp_of_no_key {s : State} {x : RegIdx} (h : 16 ≤ (s.reg x).toNat) :
    exec (.sknp x) s = .next (s.raise .outOfBoundsAccess) := by
  simp only [exec, execSknp, keyNumber_none.2 h]

/-- NO MEANING IS REFUSED: the four instructions that can fault answer on both sides of their test, the others outright. -/
theorem exec_answers (i : Instr) (s : State) : ∃ t, exec i s = .next t := by
  cases i
  case call nnn =>
    rcases Nat.lt_or_ge s.sp.val 16 with h | h
    · exact ⟨_, exec_call_of_room nnn h⟩
    · exact ⟨_, exec_call_of_full nnn (by omega)⟩
  case ret =>
    rcases Nat.eq_zero_or_pos s.sp.val with h | h
    · exact ⟨_, exec_ret_of_empty h⟩
    · exact ⟨_, exec_ret_of_pos h⟩
  case skp x =>
    rcases Nat.lt_or_ge (s.reg x).toNat 16 with h | h
    · exact ⟨_, exec_skp_of_key (k := ⟨_, h⟩) rfl⟩
    · exact ⟨_, exec_skp_of_no_key h⟩
  case sknp x =>
    rcases Nat.lt_or_ge (s.reg x).toNat 16 with h | h
    · exact ⟨_, exec_sknp_of_key (k := ⟨_, h⟩) rfl⟩
    · exact ⟨_, exec_sknp_of_no_key h⟩
  all_goals exact ⟨_, rfl⟩

theorem step_of_faulted {s : State} {r : FaultRecord} (h : s.status = .faulted r) : step s = .next (s.setRender false) := by
  simp only [step, h, stepFaulted]

theorem step_of_awaitingKey {s : State} {x : RegIdx} {snap : Keys} (h : s.status = .awaitingKey x snap) :
    step s = .next (awaitKeyStep x snap s) := by
  simp only [step, h]

theorem step_of_running {s : State} (h : s.status = .running) : step s = runStep s := by
  simp only [step, h]

/-- A Running step that fetches an instruction executes it (R104). -/
theorem step_of_fetchDecode_ok {s : State} {i : Instr} (h : s.status = .running) (hfetch : fetchDecode s = .ok i) :
    step s = exec i s := by
  simp only [step_of_running h, runStep, hfetch]

/-- A Running step whose fetch raises ends in that fault (R105). -/
theorem step_of_fetchDecode_error {s : State} {k : Fault} (h : s.status = .running) (hfetch : fetchDecode s = .error k) :
    step s = .next (s.raise k) := by
  simp only [step_of_running h, runStep, hfetch]

theorem step_answers (s : State) : ∃ t, step s = .next t := by
  cases hstatus : s.status with
  | running =>
    cases hfetch : fetchDecode s with
    | ok i =>
      obtain ⟨t, ht⟩ := exec_answers i s
      exact ⟨t, (step_of_fetchDecode_ok hstatus hfetch).trans ht⟩
    | error k => exact ⟨_, step_of_fetchDecode_error hstatus hfetch⟩
  | awaitingKey x snap => exact ⟨_, step_of_awaitingKey hstatus⟩
  | faulted r => exact ⟨_, step_of_faulted hstatus⟩

/-! ### the render output -/

/-- No meaning reads the render output: each begins by writing it (R108). -/
theorem exec_setRender (i : Instr) (s : State) (b : Bool) : exec i (s.setRender b) = exec i s := by
  cases i <;> rfl

theorem fetchDecode_setRender (s : State) (b : Bool) : fetchDecode (s.setRender b) = fetchDecode s := rfl

theorem awaitKeyStep_setRender (x : RegIdx) (snap : Keys) (s : State) (b : Bool) :
    awaitKeyStep x snap (s.setRender b) = awaitKeyStep x snap s := by
  unfold awaitKeyStep
  rw [State.setRender_cfg, State.setRender_keys]
  split <;> rfl

theorem runStep_setRender (s : State) (b : Bool) : runStep (s.setRender b) = runStep s := by
  unfold runStep
  rw [fetchDecode_setRender]
  split
  · exact exec_setRender _ s b
  · rfl

end Sys2Proof.Machine

namespace Sys2Proof.Proofs

open Sys2Proof.Machine

/-- Settles O8: each of the three run states answers. -/
theorem everyStepAnswers : Obligations.EveryStepAnswers := step_answers

/-- Settles O6: where the fetch may happen and the word decodes, the fetch answers the decoded instruction. -/
theorem stepRunsTheDecodedInstruction : Obligations.StepRunsTheDecodedInstruction :=
  fun s i hrunning haligned hdecode => step_of_fetchDecode_ok hrunning ((fetchDecode_ok s i).2 ⟨haligned, hdecode⟩)

/-- Settles O9: the words of R80 are those the decoder rejects, and a raised fault is precise. -/
theorem unrecognizedWordFaults : Obligations.UnrecognizedWordFaults := by
  intro s hrunning haligned hword
  have hfetch : fetchDecode s = .error .unrecognizedOpcode :=
    (fetchDecode_error s _).2 (.inr ⟨rfl, haligned, (decode_error_iff _ _).2 hword⟩)
  exact ⟨_, step_of_fetchDecode_error hrunning hfetch, raise_faultedFrom s _⟩

/-- Settles O10: the test of PC comes before the decode. -/
theorem oddPcFaultsBeforeDecode : Obligations.OddPcFaultsBeforeDecode := by
  intro s hrunning hodd
  exact ⟨_, step_of_fetchDecode_error hrunning (fetchDecode_of_not_aligned hodd), raise_faultedFrom s _⟩

/-- Settles O11: the one way an instruction ends Faulted is the shared raise. -/
theorem faultsArePrecise : Obligations.FaultsArePrecise := by
  intro i s t r hrunning hexec hfaulted
  obtain hkept | ⟨x, -, hwaits, -⟩ | ⟨k, rfl, -⟩ := (exec_effect hexec).status
  · rw [hkept, hrunning] at hfaulted
    cases hfaulted
  · rw [hwaits] at hfaulted
    cases hfaulted
  · cases hfaulted
    exact raise_faultedFrom s k

/-- Settles O12: only an executed instruction asks for a render, and what it is decides (R108). -/
theorem renderReportsDrawing : Obligations.RenderReportsDrawing := by
  intro s t h
  obtain ⟨r, hstatus, rfl⟩ | ⟨x, snap, hstatus, rfl⟩ | ⟨-, k, hfetch, rfl⟩ | ⟨hrunning, i, haligned, hdecode, hexec⟩ :=
    step_cases h
  case inl => simp [hstatus]
  case inr.inl =>
    obtain ⟨-, -, -, -, -, -, -, -, -, hrender⟩ := awaitKeyStep_kept x snap s
    simp [hstatus, hrender]
  case inr.inr.inl =>
    have hnone : ∀ i, ¬ (Aligned s ∧ decode s.cfg.gkOpcodes s.fetchWord = .ok i) := fun i hi => by
      rw [← fetchDecode_ok, hfetch] at hi
      cases hi
    simp only [State.raise_render, Bool.false_eq_true, false_iff]
    rintro ⟨-, haligned, i, hdecode, -⟩
    exact hnone i ⟨haligned, hdecode⟩
  case inr.inr.inr => simp [(exec_effect hexec).render, hrunning, haligned, hdecode]

/-- Settles O13: in each run state the step writes the render output and never reads it. -/
theorem renderIsOnlyAnOutput : Obligations.RenderIsOnlyAnOutput := by
  intro s b
  cases hstatus : s.status with
  | running => rw [step_of_running hstatus, step_of_running (s := s.setRender b) hstatus, runStep_setRender]
  | awaitingKey x snap =>
    rw [step_of_awaitingKey hstatus, step_of_awaitingKey (s := s.setRender b) hstatus, awaitKeyStep_setRender]
  | faulted r =>
    rw [step_of_faulted hstatus, step_of_faulted (s := s.setRender b) hstatus]
    rfl

end Sys2Proof.Proofs
end

