-- ==== Sys2Proof/Proofs/Schedules.lean ====
section
/-! Schedules (70_reset_and_hazards R232): the one induction over a list of moves, frames of transitions in a row, and what
holds at rest (R227) and after a fault (60_exceptions R209) under every schedule. -/

namespace Sys2Proof.Machine

/-! ### frames -/

theorem changesOnly_refl (touched : Part → Prop) (s : State) : ChangesOnly touched s s := by
  intro p _
  cases p <;> rfl

theorem changesOnly_mono {touched touched' : Part → Prop} {s t : State} (h : ChangesOnly touched s t)
    (hle : ∀ p, touched p → touched' p) : ChangesOnly touched' s t :=
  fun p hp => h p fun hp' => hp (hle p hp')

theorem changesOnly_trans {touched : Part → Prop} {s t u : State} (h : ChangesOnly touched s t)
    (h' : ChangesOnly touched t u) : ChangesOnly touched s u :=
  fun p hp => part_same_trans (h p hp) (h' p hp)

theorem setRender_changesOnly (s : State) (b : Bool) : ChangesOnly (among [.render]) s (s.setRender b) := by
  intro p hp
  cases p <;> simp_all [Part.Same, among]

theorem tick_changesOnly (s : State) : ChangesOnly (among [.delay, .sound]) s (tick s) := by
  intro p hp
  cases p <;> simp_all [Part.Same, among]

theorem writeKeys_changesOnly (ks : Keys) (s : State) : ChangesOnly (fun p => ∃ k, p = .key k) s (writeKeys ks s) := by
  intro p hp
  cases p <;> simp_all [Part.Same]

/-! ### the induction over a schedule -/

/-- What holds after `n` ticks and is kept by every step, tick and key write that the schedule may hold, the tick counted, holds
at the schedule's end for all the ticks in it; and the run answers. -/
theorem applyMoves_induct {P : Nat → State → Prop} {ok : Move → Prop}
    (hstep : ∀ n s, P n s → ∃ t, step s = .next t ∧ P n t)
    (htick : ∀ n s, P n s → P (n + 1) (tick s))
    (hkeys : ∀ ks, ok (.keys ks) → ∀ n s, P n s → P n (writeKeys ks s)) :
    ∀ (ms : List Move), (∀ m ∈ ms, ok m) → ∀ n s, P n s → ∃ t, applyMoves ms s = .next t ∧ P (n + tickCount ms) t := by
  intro ms
  induction ms with
  | nil => exact fun _ n s h => ⟨s, rfl, h⟩
  | cons m ms ih =>
    intro hok n s h
    have hms : ∀ m' ∈ ms, ok m' := fun m' hm' => hok m' (List.mem_cons_of_mem m hm')
    cases m with
    | step =>
      obtain ⟨t, ht, hPt⟩ := hstep n s h
      simpa only [applyMoves, applyMove, ht, tickCount] using ih hms n t hPt
    | tick =>
      have hrun := ih hms (n + 1) (tick s) (htick n s h)
      rwa [Nat.add_right_comm] at hrun
    | keys ks => exact ih hms n (writeKeys ks s) (hkeys ks (hok _ List.mem_cons_self) n s h)

/-! ### timers under a schedule (44_timers R170) -/

/-- In `t` each timer is `n` below its value in `s`, and never below 0. -/
structure TimersDownBy (n : Nat) (s t : State) : Prop where
  delay : t.dt.toNat = s.dt.toNat - n
  sound : t.st.toNat = s.st.toNat - n

theorem timersDownBy_zero (s : State) : TimersDownBy 0 s s := ⟨rfl, rfl⟩

theorem TimersDownBy.tick {n : Nat} {s t : State} (h : TimersDownBy n s t) : TimersDownBy (n + 1) s (tick t) where
  delay := by rw [tick_dt, countDown_toNat, h.delay, Nat.sub_sub]
  sound := by rw [tick_st, countDown_toNat, h.sound, Nat.sub_sub]

/-- A move that keeps both timers leaves them as far down. -/
theorem TimersDownBy.keep {n : Nat} {s t u : State} (h : TimersDownBy n s t) (hdt : u.dt = t.dt) (hst : u.st = t.st) :
    TimersDownBy n s u where
  delay := hdt ▸ h.delay
  sound := hst ▸ h.sound

/-! ### at rest (R227) -/

theorem atRest_iff (s : State) : s.atRest = true ↔
    s.status = .running ∧ s.pc.toNat % 2 = 0 ∧ opField s.fetchWord = 0x1#4 ∧ zextAddr (nnnField s.fetchWord) = s.pc := by
  simp only [State.atRest, Bool.and_eq_true, decide_eq_true_eq, and_assoc]

theorem decode_of_op_jp {w : Word} (gk : GkOpcodes) (h : opField w = 0x1#4) : decode gk w = .ok (.jp (nnnField w)) := by
  simp [decode, h]

/-- A jump to its own address leaves the whole state as it was but for the render output. -/
theorem exec_jp_self {s : State} {nnn : Addr} (h : zextAddr nnn = s.pc) : exec (.jp nnn) s = .next (s.setRender false) := by
  simp only [exec, execJp, h]
  rfl

/-- At rest a step writes the render output alone. -/
theorem step_of_atRest {s : State} (h : s.atRest = true) : step s = .next (s.setRender false) := by
  obtain ⟨hrunning, heven, hop, htarget⟩ := (atRest_iff s).1 h
  have hfetch : fetchDecode s = .ok (.jp (nnnField s.fetchWord)) :=
    (fetchDecode_ok s _).2 ⟨fun _ => heven, decode_of_op_jp _ hop⟩
  rw [step_of_fetchDecode_ok hrunning hfetch, exec_jp_self htarget]

theorem atRest_setRender (s : State) (b : Bool) : (s.setRender b).atRest = s.atRest := rfl
theorem atRest_tick (s : State) : (tick s).atRest = s.atRest := rfl
theorem atRest_writeKeys (ks : Keys) (s : State) : (writeKeys ks s).atRest = s.atRest := rfl

/-- From `s`, which was at rest, `n` ticks and any steps and key writes have led to `t`. -/
structure StillAtRest (s : State) (n : Nat) (t : State) : Prop where
  timers : TimersDownBy n s t
  pc : t.pc = s.pc
  atRest : t.atRest = true

theorem StillAtRest.step {s t : State} {n : Nat} (h : StillAtRest s n t) : ∃ u, step t = .next u ∧ StillAtRest s n u :=
  ⟨t.setRender false, step_of_atRest h.atRest, h.timers.keep rfl rfl, h.pc, (atRest_setRender t false).trans h.atRest⟩

theorem StillAtRest.tick {s t : State} {n : Nat} (h : StillAtRest s n t) : StillAtRest s (n + 1) (tick t) :=
  ⟨h.timers.tick, h.pc, (atRest_tick t).trans h.atRest⟩

theorem StillAtRest.writeKeys {s t : State} {n : Nat} (h : StillAtRest s n t) (ks : Keys) : StillAtRest s n (writeKeys ks t) :=
  ⟨h.timers.keep rfl rfl, h.pc, (atRest_writeKeys ks t).trans h.atRest⟩

/-! ### faulted (R107, R209) -/

/-- The parts that may change after a fault: the timers, the render output and the host's keys. -/
def afterFault (p : Part) : Prop := among [.delay, .sound, .render] p ∨ ∃ k, p = .key k

/-- From `s`, which was Faulted, `n` ticks and any steps and key writes have led to `t`. -/
structure StillFaulted (s : State) (n : Nat) (t : State) : Prop where
  timers : TimersDownBy n s t
  frame : ChangesOnly afterFault s t

theorem StillFaulted.status {s t : State} {n : Nat} (h : StillFaulted s n t) : t.status = s.status :=
  h.frame .status (by simp [afterFault, among])

theorem StillFaulted.step {s t : State} {n : Nat} {r : FaultRecord} (h : StillFaulted s n t)
    (hfaulted : s.status = .faulted r) : ∃ u, step t = .next u ∧ StillFaulted s n u :=
  ⟨t.setRender false, step_of_faulted (h.status.trans hfaulted), h.timers.keep rfl rfl,
    changesOnly_trans h.frame (changesOnly_mono (setRender_changesOnly t false) (by simp +contextual [afterFault, among]))⟩

theorem StillFaulted.tick {s t : State} {n : Nat} (h : StillFaulted s n t) : StillFaulted s (n + 1) (tick t) :=
  ⟨h.timers.tick,
    changesOnly_trans h.frame (changesOnly_mono (tick_changesOnly t) (by simp +contextual [afterFault, among]))⟩

theorem StillFaulted.writeKeys {s t : State} {n : Nat} (h : StillFaulted s n t) (ks : Keys) :
    StillFaulted s n (writeKeys ks t) :=
  ⟨h.timers.keep rfl rfl, changesOnly_trans h.frame (changesOnly_mono (writeKeys_changesOnly ks t) fun _ => .inr)⟩

end Sys2Proof.Machine

namespace Sys2Proof.Proofs

open Sys2Proof.Machine

/-- Settles O51: the step at rest writes the render output alone, and resting does not depend on it. -/
theorem atRestAStepChangesNothing : Obligations.AtRestAStepChangesNothing :=
  fun s h => ⟨_, step_of_atRest h, setRender_changesOnly s false, rfl, (atRest_setRender s false).trans h⟩

/-- Settles O52: resting, `PC` and the ticks counted are kept by each kind of move. -/
theorem timersFollowTheTicksOfAnySchedule : Obligations.TimersFollowTheTicksOfAnySchedule := by
  intro s ms hrest
  obtain ⟨t, hrun, htimers, hpc, ht⟩ := applyMoves_induct (P := StillAtRest s) (ok := fun _ => True)
    (hstep := fun _ _ h => h.step) (htick := fun _ _ h => h.tick) (hkeys := fun ks _ _ _ h => h.writeKeys ks)
    ms (fun _ _ => trivial) 0 s ⟨timersDownBy_zero s, rfl, hrest⟩
  rw [Nat.zero_add] at htimers
  exact ⟨t, hrun, htimers.delay, htimers.sound, hpc, ht⟩

/-- Settles O53: a step of a faulted core writes the render output alone, so no kind of move leaves the frame. -/
theorem faultedIsTerminal : Obligations.FaultedIsTerminal := by
  intro s r ms hfaulted
  obtain ⟨t, hrun, htimers, hframe⟩ := applyMoves_induct (P := StillFaulted s) (ok := fun _ => True)
    (hstep := fun _ _ h => h.step hfaulted) (htick := fun _ _ h => h.tick) (hkeys := fun ks _ _ _ h => h.writeKeys ks)
    ms (fun _ _ => trivial) 0 s ⟨timersDownBy_zero s, changesOnly_refl _ s⟩
  rw [Nat.zero_add] at htimers
  exact ⟨t, hrun, htimers.delay, htimers.sound, hframe⟩

/-- Settles O36: the two timers each lose one, and the tick's frame is they. -/
theorem tickCountsDown : Obligations.TickCountsDown :=
  fun s => ⟨countDown_toNat s.dt, countDown_toNat s.st, tick_changesOnly s⟩

end Sys2Proof.Proofs
end

