-- ==== Sys2Proof/Proofs/Waiting.lean ====
section
/-! The wait for a key (45_input R183 to R187): its start, one step of it, and its length while no key is pressed. -/

namespace Sys2Proof.Machine

theorem keyDetected_iff (trigger : KeyWaitTrigger) (snap keys : Keys) (k : RegIdx) :
    keyDetected trigger snap keys k = true ↔ keys[k.val] = true ∧ (trigger = .edge → snap[k.val] = false) := by
  cases trigger <;> simp [keyDetected]

/-- `firstDetected` finds every key that is detected and below which none is (R186). -/
theorem firstDetected_eq_some {trigger : KeyWaitTrigger} {snap keys : Keys} {k : RegIdx}
    (hk : keyDetected trigger snap keys k = true) (hlow : ∀ j < k, ¬ keyDetected trigger snap keys j = true) :
    firstDetected trigger snap keys = some k := by
  cases hfirst : firstDetected trigger snap keys with
  | none => exact absurd hk (by simp [firstDetected_none hfirst k])
  | some j =>
    obtain ⟨hj, hbelow⟩ := firstDetected_some hfirst
    rcases lt_trichotomy j k with hlt | heq | hgt
    · exact absurd hj (hlow j hlt)
    · rw [heq]
    · exact absurd hk (by simp [hbelow k hgt])

theorem firstDetected_eq_none {trigger : KeyWaitTrigger} {snap keys : Keys}
    (h : ∀ k, ¬ keyDetected trigger snap keys k = true) : firstDetected trigger snap keys = none := by
  cases hfirst : firstDetected trigger snap keys with
  | none => rfl
  | some j => exact absurd (firstDetected_some hfirst).1 (h j)

/-- A waiting step that detects key `k` (R184). -/
theorem awaitKeyStep_of_some {s : State} {x k : RegIdx} {snap : Keys}
    (h : firstDetected s.cfg.keyWaitTrigger snap s.keys = some k) :
    awaitKeyStep x snap s =
      (((s.setReg x (BitVec.ofNat 8 k.val)).setPc (s.pc + 2)).setStatus .running).setRender false := by
  simp only [awaitKeyStep, h]

/-- A waiting step that detects nothing renews the baseline (R184). -/
theorem awaitKeyStep_of_none {s : State} {x : RegIdx} {snap : Keys}
    (h : firstDetected s.cfg.keyWaitTrigger snap s.keys = none) :
    awaitKeyStep x snap s = (s.setStatus (.awaitingKey x s.keys)).setRender false := by
  simp only [awaitKeyStep, h]

/-- The frame of an ended wait. -/
theorem endWait_changesOnly (s : State) (x : RegIdx) (b : Byte) (w : Word) (z : Status) :
    ChangesOnly (among [.reg x, .pc, .status, .render]) s ((((s.setReg x b).setPc w).setStatus z).setRender false) := by
  intro p hp
  cases p <;> simp_all [Part.Same, among, eq_comm]

theorem setStatus_setRender_changesOnly (s : State) (z : Status) (b : Bool) :
    ChangesOnly (among [.status, .render]) s ((s.setStatus z).setRender b) := by
  intro p hp
  cases p <;> simp_all [Part.Same, among]

/-- FX0A puts `PC` back at its own address and enters the wait: nothing but `status` and the render output is written (R183). -/
theorem exec_ldVxK (x : RegIdx) (s : State) :
    exec (.ldVxK x) s = .next ((s.setStatus (.awaitingKey x s.keys)).setRender false) := by
  have hpc : s.advance.pc + 0xFFFE#16 = s.pc := advance_back s.pc
  simp only [exec, execLdVxK, hpc]
  rfl

/-! ### a wait without a key -/

/-- With no key pressed a waiting step detects nothing under either trigger. -/
theorem firstDetected_of_unpressed {s : State} {snap : Keys} (h : ∀ k, s.key k = false) :
    firstDetected s.cfg.keyWaitTrigger snap s.keys = none :=
  firstDetected_eq_none fun k hk => by
    have hpressed : s.key k = true := ((keyDetected_iff _ _ _ k).1 hk).1
    rw [h k] at hpressed
    cases hpressed

/-- Writing that no key is pressed over a Key State with no key pressed changes nothing. -/
theorem writeKeys_same_of_unpressed {s : State} {ks : Keys} (h : ∀ k, s.key k = false) (hks : ∀ k : RegIdx, ks[k.val] = false)
    (touched : Part → Prop) : ChangesOnly touched s (writeKeys ks s) := by
  have hsame : ks = s.keys := Vector.ext fun k hk => (hks ⟨k, hk⟩).trans (h ⟨k, hk⟩).symm
  rw [hsame]
  exact changesOnly_refl touched s

/-- The parts that may change while a core waits: the timers, and the latches of the wait. -/
def whileWaiting : Part → Prop := among [.status, .render, .delay, .sound]

/-- From `s`, which waited for a key for `Vx` with no key pressed, `n` ticks and moves that press none have led to `t`. -/
structure StillWaiting (x : RegIdx) (s : State) (n : Nat) (t : State) : Prop where
  timers : TimersDownBy n s t
  waits : ∃ snap, t.status = .awaitingKey x snap
  unpressed : ∀ k, t.key k = false
  frame : ChangesOnly whileWaiting s t

/-- A step renews the wait when no key is pressed. -/
theorem StillWaiting.step {x : RegIdx} {s t : State} {n : Nat} (h : StillWaiting x s n t) :
    ∃ u, step t = .next u ∧ StillWaiting x s n u := by
  obtain ⟨snap, hwaits⟩ := h.waits
  refine ⟨(t.setStatus (.awaitingKey x t.keys)).setRender false, ?answer, h.timers.keep rfl rfl, ⟨t.keys, rfl⟩, h.unpressed,
    ?frame⟩
  case answer => rw [step_of_awaitingKey hwaits, awaitKeyStep_of_none (firstDetected_of_unpressed h.unpressed)]
  case frame =>
    exact changesOnly_trans h.frame
      (changesOnly_mono (setStatus_setRender_changesOnly t _ _) (by simp +contextual [whileWaiting, among]))

theorem StillWaiting.tick {x : RegIdx} {s t : State} {n : Nat} (h : StillWaiting x s n t) :
    StillWaiting x s (n + 1) (tick t) where
  timers := h.timers.tick
  waits := h.waits
  unpressed := h.unpressed
  frame := changesOnly_trans h.frame (changesOnly_mono (tick_changesOnly t) (by simp +contextual [whileWaiting, among]))

theorem StillWaiting.writeKeys {x : RegIdx} {s t : State} {n : Nat} {ks : Keys} (h : StillWaiting x s n t)
    (hks : ∀ k : RegIdx, ks[k.val] = false) : StillWaiting x s n (writeKeys ks t) where
  timers := h.timers.keep rfl rfl
  waits := h.waits
  unpressed := hks
  frame := changesOnly_trans h.frame (writeKeys_same_of_unpressed h.unpressed hks _)

end Sys2Proof.Machine

namespace Sys2Proof.Proofs

open Sys2Proof.Machine

/-- Settles O39: `PC + 2` and back is `PC`, so only the two latches of the wait are written. -/
theorem ldVxKStartsTheWait : Obligations.LdVxKStartsTheWait := by
  intro s x
  exact ⟨decode_enabled_encode (.ldVxK x), _, exec_ldVxK x s, setStatus_setRender_changesOnly s _ _, rfl, rfl⟩

/-- Settles O40: the key the step takes is the lowest one detected, and a step that detects none keeps the wait. -/
theorem waitingStepPollsTheKeys : Obligations.WaitingStepPollsTheKeys := by
  intro s x snap hstatus
  simp only [State.key, ← keyDetected_iff]
  refine ⟨fun k hk hlow => ?detects, fun hnone => ?renews⟩
  case detects =>
    rw [step_of_awaitingKey hstatus, awaitKeyStep_of_some (firstDetected_eq_some hk hlow)]
    refine ⟨_, rfl, endWait_changesOnly s x _ _ _, ?_, ?_, rfl, rfl⟩
    · simp
      omega
    · exact advance_pc_toNat s
  case renews =>
    rw [step_of_awaitingKey hstatus, awaitKeyStep_of_none (firstDetected_eq_none hnone)]
    exact ⟨_, rfl, setStatus_setRender_changesOnly s _ _, rfl, rfl⟩

/-- Settles O41: waiting, with no key pressed, the frame and the ticks counted are kept by each move that presses nothing. -/
theorem waitingLastsWhileNoKeyIsPressed : Obligations.WaitingLastsWhileNoKeyIsPressed := by
  intro s x snap ms hstatus hunpressed hms
  obtain ⟨t, hrun, htimers, hwaits, -, hframe⟩ := applyMoves_induct (P := StillWaiting x s) (ok := pressesNothing)
    (hstep := fun _ _ h => h.step) (htick := fun _ _ h => h.tick) (hkeys := fun _ hks _ _ h => h.writeKeys hks)
    ms hms 0 s ⟨timersDownBy_zero s, ⟨snap, hstatus⟩, hunpressed, changesOnly_refl _ s⟩
  rw [Nat.zero_add] at htimers
  exact ⟨t, hrun, hwaits, htimers.delay, htimers.sound, hframe⟩

end Sys2Proof.Proofs
end

