-- ==== Sys2Proof/Proofs/Writers.lean ====
section
/-! Who writes the stack, memory, `I`, the keys and the configuration: what no wait, fault, tick or key write touches can change
only by an executed instruction, and what that instruction does decides. -/

namespace Sys2Proof.Machine

/-- What `f` reads of the state is written by instructions alone: every other end of a step, and each of the host's own moves,
keeps it. -/
structure OnlyExecWrites {α : Type} (f : State → α) : Prop where
  setRender : ∀ s, f (s.setRender false) = f s
  awaitKeyStep : ∀ x snap s, f (awaitKeyStep x snap s) = f s
  raise : ∀ s k, f (s.raise k) = f s
  tick : ∀ s, f (tick s) = f s
  writeKeys : ∀ ks s, f (writeKeys ks s) = f s

/-- A move that changed such a thing was a step of a Running core that executed an instruction. -/
theorem OnlyExecWrites.of_changed {α : Type} {f : State → α} (hf : OnlyExecWrites f) {m : Move} {s t : State}
    (h : applyMove m s = .next t) (hchanged : f t ≠ f s) :
    m = .step ∧ s.status = .running ∧ ∃ i, decode s.cfg.gkOpcodes s.fetchWord = .ok i ∧ exec i s = .next t := by
  cases m with
  | step =>
    obtain ⟨r, -, rfl⟩ | ⟨x, snap, -, rfl⟩ | ⟨-, k, -, rfl⟩ | ⟨hrunning, i, -, hdecode, hexec⟩ := step_cases h
    · exact absurd (hf.setRender s) hchanged
    · exact absurd (hf.awaitKeyStep x snap s) hchanged
    · exact absurd (hf.raise s k) hchanged
    · exact ⟨rfl, hrunning, i, hdecode, hexec⟩
  | tick =>
    cases h
    exact absurd (hf.tick s) hchanged
  | keys ks =>
    cases h
    exact absurd (hf.writeKeys ks s) hchanged

theorem onlyExecWrites_sp : OnlyExecWrites State.sp where
  setRender _ := rfl
  awaitKeyStep x snap s := by obtain ⟨-, -, -, -, -, h, -⟩ := awaitKeyStep_kept x snap s; exact h
  raise _ _ := rfl
  tick _ := rfl
  writeKeys _ _ := rfl

theorem onlyExecWrites_stack : OnlyExecWrites State.stack where
  setRender _ := rfl
  awaitKeyStep x snap s := by obtain ⟨-, -, -, -, -, -, h, -⟩ := awaitKeyStep_kept x snap s; exact h
  raise _ _ := rfl
  tick _ := rfl
  writeKeys _ _ := rfl

theorem onlyExecWrites_mem : OnlyExecWrites State.mem where
  setRender _ := rfl
  awaitKeyStep x snap s := by obtain ⟨-, -, h, -⟩ := awaitKeyStep_kept x snap s; exact h
  raise _ _ := rfl
  tick _ := rfl
  writeKeys _ _ := rfl

theorem onlyExecWrites_index : OnlyExecWrites State.index where
  setRender _ := rfl
  awaitKeyStep x snap s := by obtain ⟨-, -, -, -, -, -, -, -, h, -⟩ := awaitKeyStep_kept x snap s; exact h
  raise _ _ := rfl
  tick _ := rfl
  writeKeys _ _ := rfl

theorem onlyExecWrites_cfg : OnlyExecWrites State.cfg where
  setRender _ := rfl
  awaitKeyStep x snap s := (awaitKeyStep_kept x snap s).1
  raise _ _ := rfl
  tick _ := rfl
  writeKeys _ _ := rfl

/-- No move changes the configuration (00_scope R7): no instruction writes it. -/
theorem applyMove_cfg {m : Move} {s t : State} (h : applyMove m s = .next t) : t.cfg = s.cfg := by
  by_contra hchanged
  obtain ⟨-, -, i, -, hexec⟩ := onlyExecWrites_cfg.of_changed h hchanged
  exact hchanged (exec_effect hexec).cfg

/-- No step changes the Key State (R29, R180). -/
theorem step_keys {s t : State} (h : step s = .next t) : t.keys = s.keys := by
  obtain ⟨r, -, rfl⟩ | ⟨x, snap, -, rfl⟩ | ⟨-, k, -, rfl⟩ | ⟨-, i, -, -, hexec⟩ := step_cases h
  · rfl
  · obtain ⟨-, hkept, -⟩ := awaitKeyStep_kept x snap s
    exact hkept
  · rfl
  · exact (exec_effect hexec).keys

end Sys2Proof.Machine

namespace Sys2Proof.Proofs

open Sys2Proof.Machine

/-- Settles O29: of the instructions only CALL and RET write SP, and only CALL a slot. -/
theorem onlyCallAndRetTouchTheStack : Obligations.OnlyCallAndRetTouchTheStack := by
  intro m s t h
  refine ⟨fun hsp => ?pointer, fun hstack => ?slots⟩
  case pointer =>
    obtain ⟨hm, hrunning, i, hdecode, hexec⟩ := onlyExecWrites_sp.of_changed h hsp
    obtain rfl | ⟨nnn, rfl⟩ := (exec_effect hexec).sp hsp
    · exact ⟨hm, hrunning, .inl hdecode⟩
    · exact ⟨hm, hrunning, .inr ⟨nnn, hdecode⟩⟩
  case slots =>
    obtain ⟨hm, hrunning, i, hdecode, hexec⟩ := onlyExecWrites_stack.of_changed h hstack
    obtain ⟨nnn, rfl⟩ := (exec_effect hexec).stack hstack
    exact ⟨hm, hrunning, nnn, hdecode⟩

/-- Settles O47: of the instructions only FX33 and FX55 write memory. -/
theorem onlyTwoInstructionsWriteMemory : Obligations.OnlyTwoInstructionsWriteMemory := by
  intro m s t h hmem
  obtain ⟨hm, hrunning, i, hdecode, hexec⟩ := onlyExecWrites_mem.of_changed h hmem
  obtain ⟨x, rfl | rfl⟩ := (exec_effect hexec).mem hmem
  · exact ⟨hm, hrunning, x, .inl hdecode⟩
  · exact ⟨hm, hrunning, x, .inr hdecode⟩

/-- Settles O48: every instruction that writes `I` is a GK opcode, which a core without them does not decode. -/
theorem indexIsFrozenWithoutGkOpcodes : Obligations.IndexIsFrozenWithoutGkOpcodes := by
  intro m s t hdisabled h
  by_contra hindex
  obtain ⟨-, -, i, hdecode, hexec⟩ := onlyExecWrites_index.of_changed h hindex
  have henabled := enabled_of_decode_isGk hdecode ((exec_effect hexec).index hindex)
  rw [hdisabled] at henabled
  cases henabled

/-- Settles O42: no instruction writes the configuration or the Key State, and of the host's moves only the key write does. -/
theorem onlyTheHostWritesTheKeys : Obligations.OnlyTheHostWritesTheKeys := by
  intro m s t h
  refine ⟨applyMove_cfg h, fun hnot => ?_⟩
  cases m with
  | step => exact step_keys h
  | tick =>
    cases h
    rfl
  | keys ks => exact absurd rfl (hnot ks)

end Sys2Proof.Proofs
end

