-- ==== Sys2Proof/Proofs/Invariant.lean ====
section
/-! The invariant of a core (60_exceptions R200 to R206, 45_input R183): canonical memory and a truthful run state, at reset,
over every step, and so at the end of every schedule of a loaded core. -/

namespace Sys2Proof.Machine

theorem statusTruthful_of_running {s : State} (h : s.status = .running) : StatusTruthful s := by
  simp only [StatusTruthful, h]

theorem statusTruthful_awaitingKey {s : State} {x : RegIdx} {snap : Keys} (h : s.status = .awaitingKey x snap) :
    StatusTruthful s ↔ Aligned s ∧ decode s.cfg.gkOpcodes s.fetchWord = .ok (.ldVxK x) := by
  simp only [StatusTruthful, h]

/-- The cause of a fault does not speak of the latches a fault writes. -/
theorem faultCause_raise (kind k : Fault) (s : State) : FaultCause kind (s.raise k) ↔ FaultCause kind s := by
  cases kind <;> rfl

/-- A raised fault whose cause holds is a true report (R205). -/
theorem statusTruthful_raise {s : State} {k : Fault} (h : FaultCause k s) : StatusTruthful (s.raise k) :=
  ⟨rfl, rfl, rfl, (faultCause_raise k k s).2 h⟩

/-- The fetched word depends on the configuration, memory and `PC` alone. -/
theorem fetchWord_congr {s t : State} (hcfg : t.cfg = s.cfg) (hmem : t.mem = s.mem) (hpc : t.pc = s.pc) :
    t.fetchWord = s.fetchWord := by
  simp only [State.fetchWord, State.wordAt, State.memRead, hcfg, hmem, hpc]

theorem coreInvariant_setRender (s : State) (b : Bool) : CoreInvariant (s.setRender b) ↔ CoreInvariant s := Iff.rfl

theorem coreInvariant_tick (s : State) : CoreInvariant (tick s) ↔ CoreInvariant s := Iff.rfl

theorem coreInvariant_writeKeys (ks : Keys) (s : State) : CoreInvariant (writeKeys ks s) ↔ CoreInvariant s := Iff.rfl

/-- A waiting step ends the wait, or leaves the core at the FX0A that waits. -/
theorem awaitKeyStep_coreInvariant {s : State} {x : RegIdx} {snap : Keys} (hstatus : s.status = .awaitingKey x snap)
    (h : CoreInvariant s) : CoreInvariant (awaitKeyStep x snap s) := by
  obtain ⟨hmem, htruth⟩ := h
  rcases awaitKeyStep_eq x snap s with ⟨k, -, heq⟩ | ⟨-, heq⟩ <;> rw [heq]
  · exact ⟨hmem, statusTruthful_of_running rfl⟩
  · exact ⟨hmem, (statusTruthful_awaitingKey rfl).2 ((statusTruthful_awaitingKey hstatus).1 htruth)⟩

/-- The cause of a fault that the fetch raises (R201, R206). -/
theorem faultCause_of_fetchDecode {s : State} {k : Fault} (h : fetchDecode s = .error k) : FaultCause k s := by
  obtain ⟨rfl, hodd⟩ | ⟨rfl, haligned, hrejected⟩ := (fetchDecode_error s k).1 h
  · exact hodd
  · exact ⟨haligned, (decode_error_iff _ _).1 hrejected⟩

/-- An executed instruction leaves a truthful run state: it runs on, starts the wait at its own address, or raises the fault it
has, with its cause (R183, R202 to R204). -/
theorem exec_statusTruthful {s t : State} {i : Instr} (hrunning : s.status = .running) (haligned : Aligned s)
    (hdecode : decode s.cfg.gkOpcodes s.fetchWord = .ok i) (hexec : exec i s = .next t) : StatusTruthful t := by
  have heffect := exec_effect hexec
  obtain hkept | ⟨x, rfl, hwaits, hpc, hmem⟩ | ⟨k, rfl, hfault⟩ := heffect.status
  case inl => exact statusTruthful_of_running (hkept.trans hrunning)
  case inr.inl =>
    rw [statusTruthful_awaitingKey hwaits, Aligned, heffect.cfg, hpc, fetchWord_congr heffect.cfg hmem hpc]
    exact ⟨haligned, hdecode⟩
  case inr.inr =>
    refine statusTruthful_raise ?_
    obtain ⟨nnn, rfl, rfl, hfull⟩ | ⟨rfl, rfl, hempty⟩ | ⟨x, hi, rfl, hnokey⟩ := hfault
    · exact ⟨haligned, hfull, nnn, hdecode⟩
    · exact ⟨haligned, hempty, hdecode⟩
    · rcases hi with rfl | rfl
      · exact ⟨haligned, x, hnokey, .inl hdecode⟩
      · exact ⟨haligned, x, hnokey, .inr hdecode⟩

theorem step_coreInvariant {s t : State} (h : CoreInvariant s) (hstep : step s = .next t) : CoreInvariant t := by
  obtain ⟨r, -, rfl⟩ | ⟨x, snap, hstatus, rfl⟩ | ⟨-, k, hfetch, rfl⟩ | ⟨hrunning, i, haligned, hdecode, hexec⟩ :=
    step_cases hstep
  · exact (coreInvariant_setRender s false).2 h
  · exact awaitKeyStep_coreInvariant hstatus h
  · exact ⟨h.1, statusTruthful_raise (faultCause_of_fetchDecode hfetch)⟩
  · exact ⟨(exec_effect hexec).wf h.1, exec_statusTruthful hrunning haligned hdecode hexec⟩

theorem resetWith_coreInvariant (cfg : Config) : CoreInvariant (State.resetWith cfg) :=
  ⟨State.resetWith_wf cfg, statusTruthful_of_running rfl⟩

/-- What a load answers is the reset state with the ROM stored at 0x200 (R222, R223). -/
theorem load_ok_iff {cfg : Config} {rom : List Byte} {s : State} :
    load cfg rom = .ok s ↔ rom.length ≤ 3584 ∧ s = (State.resetWith cfg).storeBytes 0x200 rom := by
  unfold load
  split_ifs with hlen <;> simp [hlen, eq_comm]

/-- A loaded core has the invariant: the store keeps memory's form, and the core runs. -/
theorem load_coreInvariant {cfg : Config} {rom : List Byte} {s : State} (h : load cfg rom = .ok s) :
    CoreInvariant s ∧ s.cfg = cfg := by
  obtain ⟨-, rfl⟩ := load_ok_iff.1 h
  exact ⟨⟨State.storeBytes_wf _ _ _ (State.resetWith_wf cfg), statusTruthful_of_running rfl⟩, rfl⟩

end Sys2Proof.Machine

namespace Sys2Proof.Proofs

open Sys2Proof.Machine

/-- Settles O54: the reset memory lists nothing and the core runs. -/
theorem resetMeetsTheInvariant : Obligations.ResetMeetsTheInvariant := resetWith_coreInvariant

/-- Settles O55: each of the four ends of a step keeps the invariant. -/
theorem everyStepKeepsTheInvariant : Obligations.EveryStepKeepsTheInvariant :=
  fun _ _ => step_coreInvariant

/-- Settles O56: the invariant and the configuration hold after the load and are kept by each kind of move. -/
theorem everyScheduleOfALoadedCoreMeetsTheInvariant : Obligations.EveryScheduleOfALoadedCoreMeetsTheInvariant := by
  intro cfg rom s ms hload
  exact applyMoves_induct (P := fun _ t => CoreInvariant t ∧ t.cfg = cfg) (ok := fun _ => True)
    (hstep := fun _ t ⟨hinv, hcfg⟩ =>
      have ⟨u, hu⟩ := step_answers t
      ⟨u, hu, step_coreInvariant hinv hu, (applyMove_cfg (m := .step) hu).trans hcfg⟩)
    (htick := fun _ t ⟨hinv, hcfg⟩ => ⟨(coreInvariant_tick t).2 hinv, hcfg⟩)
    (hkeys := fun ks _ _ t ⟨hinv, hcfg⟩ => ⟨(coreInvariant_writeKeys ks t).2 hinv, hcfg⟩)
    ms (fun _ _ => trivial) 0 s (load_coreInvariant hload)

end Sys2Proof.Proofs
end

