-- ==== Sys2Proof/Proofs/Instructions.lean ====
section
/-! Flag arithmetic, random, register and key skips, jumps, timer moves and `I` (41_alu_skip, 42_control_flow, 44_timers,
45_input, 46_index_memory): each instruction ends in one of a few shared ways. -/

namespace Sys2Proof.Machine

/-! ### the shared ends of a meaning -/

/-- What is known of the answered state may be added to. -/
theorem completes_and {w : Word} {i : Instr} {s t : State} {touched : Part → Prop} {post post' : State → Prop}
    (h : Completes w i s touched post) (hexec : exec i s = .next t) (hpost : post' t) :
    Completes w i s touched (fun t => post t ∧ post' t) := by
  obtain ⟨hdecode, t', hexec', hframe, ht'⟩ := h
  rw [hexec] at hexec'
  cases hexec'
  exact ⟨hdecode, t, hexec, hframe, ht', hpost⟩

/-- An instruction that writes a result to `Vx` and then a flag to VF (R137): VF holds the flag, and Vx the result unless it is
VF. -/
theorem completes_of_exec_setRegFlag {w : Word} {i : Instr} {s : State} {x : RegIdx} {b : Byte} {f : Bool}
    (hdecode : decode .enabled w = .ok i) (hexec : exec i s = .next (s.advance.setRegFlag x b (flagByte f))) :
    Completes w i s (among [.reg x, .reg vf, .pc, .render])
      (fun t => (x ≠ vf → t.reg x = b) ∧ (t.reg vf).toNat = flagNat (f = true) ∧ FallsThrough s t) := by
  refine ⟨hdecode, _, hexec, setRegFlag_changesOnly s x b _, fun hx => ?_, ?_, advance_pc_toNat s⟩
  · simp [hx.symm]
  · simp [flagByte_toNat]

/-- An instruction that may skip asks for no render (R108). -/
theorem completes_of_exec_skipIf_render {w : Word} {i : Instr} {s : State} {c : Bool}
    (hdecode : decode .enabled w = .ok i) (hexec : exec i s = .next (s.advance.skipIf c)) :
    Completes w i s (among [.pc, .render])
      (fun t => t.pc.toNat = (s.pc.toNat + if c = true then 4 else 2) % 65536 ∧ t.render = false) :=
  completes_and (completes_of_exec_skipIf hdecode hexec) hexec (by simp)

theorem setPc_changesOnly (s : State) (w : Word) : ChangesOnly (among [.pc, .render]) s (s.advance.setPc w) := by
  intro p hp
  cases p <;> simp_all [Part.Same, among]

/-- An instruction that jumps (R150, R151). -/
theorem completes_of_exec_setPc {w : Word} {i : Instr} {s : State} {target : Word}
    (hdecode : decode .enabled w = .ok i) (hexec : exec i s = .next (s.advance.setPc target)) :
    Completes w i s (among [.pc, .render]) (fun t => t.pc = target ∧ t.render = false) :=
  ⟨hdecode, _, hexec, setPc_changesOnly s target, rfl, rfl⟩

theorem setIndex_changesOnly (s : State) (w : Word) :
    ChangesOnly (among [.index, .pc, .render]) s (s.advance.setIndex w) := by
  intro p hp
  cases p <;> simp_all [Part.Same, among]

/-- An instruction that only sets `I` (R190 to R192). -/
theorem completes_of_exec_setIndex {w : Word} {i : Instr} {s : State} {index : Word}
    (hdecode : decode .enabled w = .ok i) (hexec : exec i s = .next (s.advance.setIndex index)) :
    Completes w i s (among [.index, .pc, .render]) (fun t => t.index = index ∧ FallsThrough s t) :=
  ⟨hdecode, _, hexec, setIndex_changesOnly s index, rfl, advance_pc_toNat s⟩

theorem setDelay_changesOnly (s : State) (b : Byte) :
    ChangesOnly (among [.delay, .pc, .render]) s (s.advance.setDelay b) := by
  intro p hp
  cases p <;> simp_all [Part.Same, among]

theorem setSound_changesOnly (s : State) (b : Byte) :
    ChangesOnly (among [.sound, .pc, .render]) s (s.advance.setSound b) := by
  intro p hp
  cases p <;> simp_all [Part.Same, among]

theorem drawn_setReg_changesOnly (s : State) (x : RegIdx) (b : Byte) :
    ChangesOnly (among [.reg x, .draws, .pc, .render]) s (s.advance.drawn.setReg x b) := by
  intro p hp
  cases p <;> simp_all [Part.Same, among, eq_comm]

/-! ### the arithmetic of results and flags -/

theorem sub_toNat (a b : Byte) : (a - b).toNat = (a.toNat + 256 - b.toNat) % 256 := by
  rw [BitVec.toNat_sub]
  have hb := b.isLt
  omega

/-- The flag of a subtraction, on the numbers (R127, R128). -/
theorem flagNat_subFlag (cfg : Config) (a b : Byte) : flagNat (subFlag cfg a b = true) =
    if a.toNat > b.toNat then 1 else if a.toNat = b.toNat then flagNat (cfg.subVfOnEqual = true) else 0 := by
  simp only [subFlag, BitVec.toNat_inj]
  split_ifs <;> simp [flagNat]

/-- An instruction that subtracts `b` from `a`, its flag written last (R127, R128). -/
theorem completes_of_exec_sub {w : Word} {i : Instr} {s : State} {x : RegIdx} {a b : Byte}
    (hdecode : decode .enabled w = .ok i)
    (hexec : exec i s = .next (s.advance.setRegFlag x (a - b) (flagByte (subFlag s.cfg a b)))) :
    Completes w i s (among [.reg x, .reg vf, .pc, .render])
      (fun t => (x ≠ vf → (t.reg x).toNat = (a.toNat + 256 - b.toNat) % 256) ∧
        (t.reg vf).toNat = (if a.toNat > b.toNat then 1
          else if a.toNat = b.toNat then flagNat (s.cfg.subVfOnEqual = true) else 0) ∧ FallsThrough s t) := by
  refine completes_mono (completes_of_exec_setRegFlag hdecode hexec) fun t ⟨hreg, hflag, hpc⟩ => ⟨fun hx => ?_, ?_, hpc⟩
  · rw [hreg hx, sub_toNat]
  · rw [hflag, flagNat_subFlag]

/-- Bit 0 as a number (R129). -/
theorem flagNat_shrFlag (a : Byte) : flagNat (shrFlag a = true) = a.toNat % 2 := by
  simp only [flagNat, shrFlag, BitVec.getLsbD, Nat.testBit_zero, decide_eq_true_eq]
  split_ifs <;> omega

/-- Bit 7 as a number (R130). -/
theorem flagNat_shlFlag (a : Byte) : flagNat (shlFlag a = true) = a.toNat / 128 := by
  have ha := a.isLt
  simp only [flagNat, shlFlag, BitVec.getLsbD, Nat.testBit_eq_decide_div_mod_eq, decide_eq_true_eq]
  split_ifs <;> omega

theorem shiftRight_one_toNat (a : Byte) : (a >>> 1).toNat = a.toNat / 2 := by
  rw [BitVec.toNat_ushiftRight, Nat.shiftRight_eq_div_pow, pow_one]

theorem shiftLeft_one_toNat (a : Byte) : (a <<< 1).toNat = a.toNat * 2 % 256 := by
  rw [BitVec.toNat_shiftLeft, Nat.shiftLeft_eq, pow_one]

theorem zextAddr_toNat (a : Addr) : (zextAddr a).toNat = a.toNat := by
  have ha := a.isLt
  rw [zextAddr, BitVec.toNat_setWidth]
  omega

theorem zextByte_toNat (b : Byte) : (zextByte b).toNat = b.toNat := by
  have hb := b.isLt
  rw [zextByte, BitVec.toNat_setWidth]
  omega

/-- `V0 + nnn` never reaches 65536, so nothing is truncated (R151). -/
theorem jumpV0Target_toNat (s : State) (nnn : Addr) : (jumpV0Target s nnn).toNat = (s.reg 0).toNat + nnn.toNat := by
  have hv := (s.reg 0).isLt
  have hn := nnn.isLt
  rw [jumpV0Target, BitVec.toNat_add, zextByte_toNat, zextAddr_toNat]
  omega

/-- No font base overflows: the address is the base plus five bytes a digit (R192). -/
theorem fontAddress_toNat (cfg : Config) (b : Byte) :
    (fontAddress cfg b).toNat = cfg.fontBase.toNat + 5 * (b.toNat % 16) := by
  have hbase := cfg.fontBase.isLt
  have hdigit : (b &&& 0xF).toNat = b.toNat % 16 := by
    rw [BitVec.toNat_and]
    exact Nat.and_two_pow_sub_one_eq_mod b.toNat 4
  have hfive : (5 : Word).toNat = 5 := rfl
  rw [fontAddress, BitVec.toNat_add, BitVec.toNat_mul, zextByte_toNat, zextAddr_toNat, hdigit, hfive]
  omega

end Sys2Proof.Machine

namespace Sys2Proof.Proofs

open Sys2Proof.Machine

/-- Settles O19: a result and a flag are written, the flag being the ninth bit of the sum. -/
theorem addVxVySetsCarry : Obligations.AddVxVySetsCarry := by
  intro s x y
  refine completes_mono (completes_of_exec_setRegFlag (decode_enabled_encode (.addVxVy x y)) rfl)
    fun t ⟨hreg, hflag, hpc⟩ => ⟨fun hx => ?_, ?_, hpc⟩
  · rw [hreg hx, BitVec.toNat_add]
  · rw [hflag]
    simp [addCarry]

/-- Settles O20: both are the shared subtraction, with the operands one way round and the other. -/
theorem subAndSubnSetNotBorrow : Obligations.SubAndSubnSetNotBorrow :=
  fun _ x y => ⟨completes_of_exec_sub (decode_enabled_encode (.sub x y)) rfl,
    completes_of_exec_sub (decode_enabled_encode (.subn x y)) rfl⟩

/-- Settles O21: both write a shifted byte and the bit that left it, and neither reads Vy. -/
theorem shiftsSetTheBitShiftedOut : Obligations.ShiftsSetTheBitShiftedOut := by
  intro s x y
  refine ⟨?shr, ?shl⟩
  case shr =>
    refine completes_mono (completes_of_exec_setRegFlag (decode_enabled_encode (.shr x y)) rfl)
      fun t ⟨hreg, hflag, hpc⟩ => ⟨fun hx => ?_, ?_, hpc⟩
    · rw [hreg hx, shiftRight_one_toNat]
    · rw [hflag, flagNat_shrFlag]
  case shl =>
    refine completes_mono (completes_of_exec_setRegFlag (decode_enabled_encode (.shl x y)) rfl)
      fun t ⟨hreg, hflag, hpc⟩ => ⟨fun hx => ?_, ?_, hpc⟩
    · rw [hreg hx, shiftLeft_one_toNat]
    · rw [hflag, flagNat_shlFlag]

/-- Settles O22: the draw counter goes up by one and one register is written, its bits those of the masked byte. -/
theorem rndMasksAFreeByte : Obligations.RndMasksAFreeByte := by
  intro s x nn
  refine ⟨decode_enabled_encode (.rnd x nn), _, rfl, drawn_setReg_changesOnly s x _, fun b => ?_, rfl, advance_pc_toNat s⟩
  simp [State.draw8]

/-- Settles O24: both are the shared skip, and any other last digit falls to the decoder's reject of the op. -/
theorem registerSkipsAddTwo : Obligations.RegisterSkipsAddTwo := by
  intro s x y
  refine ⟨?se, ?sne, fun gk n hn => ?rejects⟩
  case se =>
    have hdecode : decode .enabled (wordXYN 0x5 x y 0x0) = .ok (.seVxVy x y) := decode_enabled_encode (.seVxVy x y)
    simpa only [beq_iff_eq] using completes_of_exec_skipIf_render (s := s) hdecode rfl
  case sne =>
    have hdecode : decode .enabled (wordXYN 0x9 x y 0x0) = .ok (.sneVxVy x y) := decode_enabled_encode (.sneVxVy x y)
    simpa only [bne_iff_ne, ne_eq, ite_not] using completes_of_exec_skipIf_render (s := s) hdecode rfl
  case rejects => simpa [decode] using hn

/-- Settles O25: both set `PC`, and neither target is masked or truncated. -/
theorem jumpsSetPc : Obligations.JumpsSetPc := by
  intro s nnn
  refine ⟨?jp, ?jpV0⟩
  case jp =>
    refine completes_mono (completes_of_exec_setPc (decode_enabled_encode (.jp nnn)) rfl)
      fun t ⟨hpc, hrender⟩ => ⟨?_, hrender⟩
    rw [hpc, zextAddr_toNat]
  case jpV0 =>
    refine completes_mono (completes_of_exec_setPc (decode_enabled_encode (.jpV0 nnn)) rfl)
      fun t ⟨hpc, hrender⟩ => ⟨?_, hrender⟩
    rw [hpc, jumpV0Target_toNat]

/-- Settles O35: each is one write, of a register or of a timer; the tone follows ST. -/
theorem timerMoves : Obligations.TimerMoves := by
  intro s x
  refine ⟨?ldVxDt, ?ldDtVx, ?ldStVx, ?rejects⟩
  case ldVxDt => exact completes_of_exec_setReg (decode_enabled_encode (.ldVxDt x)) rfl
  case ldDtVx =>
    exact ⟨decode_enabled_encode (.ldDtVx x), _, rfl, setDelay_changesOnly s _, rfl, advance_pc_toNat s⟩
  case ldStVx =>
    refine ⟨decode_enabled_encode (.ldStVx x), _, rfl, setSound_changesOnly s _, rfl, ?_, advance_pc_toNat s⟩
    rw [State.toneActive, decide_eq_true_eq, State.setSound_st, Nat.pos_iff_ne_zero, ne_eq, ne_eq, ← BitVec.toNat_inj]
    rfl
  case rejects =>
    intro nn hnn
    simp only [List.mem_cons, List.not_mem_nil, or_false] at hnn
    rcases hnn with rfl | rfl | rfl <;> simp [decode, decodeMisc, gkOnly]

/-- Settles O38: on a key's number both are the shared skip, on that key and on its negation; else both raise. -/
theorem keySkipsTestTheLevel : Obligations.KeySkipsTestTheLevel := by
  intro s x
  refine ⟨fun k hk => ⟨?skp, ?sknp⟩, fun hnone => ⟨?skpFault, ?sknpFault⟩⟩
  case skp =>
    exact completes_of_exec_skipIf_render (decode_enabled_encode (.skp x)) (exec_skp_of_key hk)
  case sknp =>
    have hdecode : decode .enabled (wordXNN 0xE x 0xA1) = .ok (.sknp x) := decode_enabled_encode (.sknp x)
    simpa only [Bool.not_eq_true', ← Bool.not_eq_true, ite_not] using
      completes_of_exec_skipIf_render hdecode (exec_sknp_of_key hk)
  case skpFault => exact ⟨_, exec_skp_of_no_key hnone, raise_faultedFrom s _⟩
  case sknpFault => exact ⟨_, exec_sknp_of_no_key hnone, raise_faultedFrom s _⟩

/-- Settles O43: each sets `I` alone, to a number that the arithmetic of words gives. -/
theorem indexIsSet : Obligations.IndexIsSet := by
  intro s x nnn
  refine ⟨?ldI, ?addIVx, ?ldFVx⟩
  case ldI =>
    refine completes_mono (completes_of_exec_setIndex (decode_enabled_encode (.ldI nnn)) rfl)
      fun t ⟨hindex, hpc⟩ => ⟨?_, hpc⟩
    rw [hindex, zextAddr_toNat]
  case addIVx =>
    refine completes_mono (completes_of_exec_setIndex (decode_enabled_encode (.addIVx x)) rfl)
      fun t ⟨hindex, hpc⟩ => ⟨?_, hpc⟩
    rw [hindex, BitVec.toNat_add, zextByte_toNat]
  case ldFVx =>
    refine completes_mono (completes_of_exec_setIndex (decode_enabled_encode (.ldFVx x)) rfl)
      fun t ⟨hindex, hpc⟩ => ⟨?_, hpc⟩
    rw [hindex, fontAddress_toNat]

end Sys2Proof.Proofs
end

