-- ==== Sys2Proof/Proofs/CallStack.lean ====
section
/-! CALL and RET (42_control_flow R152 to R154): one of each, and nested chains of them. -/

namespace Sys2Proof.Machine

@[simp] theorem afterCall_pc (nnn : Addr) (s : State) (h : s.sp.val < 16) : (afterCall nnn s h).pc = zextAddr nnn := rfl

@[simp] theorem afterCall_sp (nnn : Addr) (s : State) (h : s.sp.val < 16) : (afterCall nnn s h).sp.val = s.sp.val + 1 := rfl

/-- The pushed slot is the one at the old SP, and holds the following address (R110, R152). -/
@[simp] theorem afterCall_slot (nnn : Addr) (s : State) (h : s.sp.val < 16) (j : Fin 16) :
    (afterCall nnn s h).slot j = if s.sp.val = j.val then s.advance.pc else s.slot j :=
  State.slot_push s.advance s.advance.pc h j

theorem afterCall_changesOnly (nnn : Addr) (s : State) (h : s.sp.val < 16) :
    ChangesOnly (among [.slot ⟨s.sp.val, h⟩, .sp, .pc, .render]) s (afterCall nnn s h) := by
  intro p hp
  cases p
  case sp | pc | render => exact absurd (by simp [among]) hp
  case slot j =>
    refine (afterCall_slot nnn s h j).trans (if_neg fun hj => hp ?_)
    simp [among, hj]
  all_goals rfl

/-- RET goes to the address in the slot below SP (R153). -/
theorem afterRet_pc (s : State) (h : 0 < s.sp.val) : (afterRet s h).pc = s.slot ⟨s.sp.val - 1, by omega⟩ := rfl

@[simp] theorem afterRet_sp (s : State) (h : 0 < s.sp.val) : (afterRet s h).sp.val = s.sp.val - 1 := rfl

/-- The popped slot keeps its value (R25, D29). -/
theorem afterRet_changesOnly (s : State) (h : 0 < s.sp.val) : ChangesOnly (among [.sp, .pc, .render]) s (afterRet s h) := by
  intro p hp
  cases p
  case sp | pc | render => exact absurd (by simp [among]) hp
  all_goals rfl

/-! ### chains (R154) -/

theorem callChain_cons {a : Addr} {rest : List Addr} {s t : State} (h : exec (.call a) s = .next t) :
    callChain (a :: rest) s = callChain rest t := by
  simp only [callChain, h]

/-- One more RET at the end of a chain of them. -/
theorem returnChain_succ_of_last {n : Nat} : ∀ {t u v : State}, returnChain n t = .next u → exec .ret u = .next v →
    returnChain (n + 1) t = .next v := by
  induction n with
  | zero =>
    intro t u v hchain hlast
    cases hchain
    simp only [returnChain, hlast]
  | succ n ih =>
    intro t u v hchain hlast
    rw [returnChain]
    rw [returnChain] at hchain
    obtain ⟨t', ht'⟩ := exec_answers .ret t
    simp only [ht'] at hchain ⊢
    exact ih hchain hlast

/-- What a chain of CALLs and its RETs may change for good: `PC`, the render output and the slots from the old SP up. -/
def slotsFrom (sp : Nat) (p : Part) : Prop := among [.pc, .render] p ∨ ∃ j : Fin 16, sp ≤ j.val ∧ p = .slot j

theorem slotsFrom_mono {sp sp' : Nat} {p : Part} (hle : sp ≤ sp') (h : slotsFrom sp' p) : slotsFrom sp p :=
  h.imp_right fun ⟨j, hj, hp⟩ => ⟨j, hle.trans hj, hp⟩

/-- The chain of CALLs from `s` leads to `t`, and as many RETs from `t` to `u`, with all but `slotsFrom` as it was in `s`. -/
structure CallsReturn (as : List Addr) (s t u : State) : Prop where
  calls : callChain as s = .next t
  sp : t.sp.val = s.sp.val + as.length
  returns : returnChain as.length t = .next u
  frame : ChangesOnly (slotsFrom s.sp.val) s u

theorem callsReturn_nil (s : State) : CallsReturn [] s s s := ⟨rfl, rfl, rfl, changesOnly_refl _ s⟩

/-- A CALL before a chain that comes back, and a RET after it: the RET finds SP and its slot as the CALL left them, and so comes
back to the instruction after the CALL. -/
theorem callsReturn_cons {a : Addr} {rest : List Addr} {s t u : State} (hroom : s.sp.val < 16)
    (h : CallsReturn rest (afterCall a s hroom) t u) :
    ∃ v, CallsReturn (a :: rest) s t v ∧ v.pc.toNat = (s.pc.toNat + 2) % 65536 := by
  have hframe : ChangesOnly (slotsFrom (s.sp.val + 1)) (afterCall a s hroom) u := h.frame
  have hsp : u.sp.val = s.sp.val + 1 := congrArg Fin.val (hframe .sp (by simp [slotsFrom, among]))
  have hslot : u.slot ⟨s.sp.val, hroom⟩ = s.advance.pc :=
    (hframe (.slot _) (by simp [slotsFrom, among])).trans ((afterCall_slot a s hroom _).trans (if_pos rfl))
  have hpos : 0 < u.sp.val := by omega
  have hpc : (afterRet u hpos).pc = s.advance.pc := by
    rw [afterRet_pc, ← hslot]
    congr 1
    exact Fin.ext (by simp [hsp])
  refine ⟨afterRet u hpos, ⟨?calls, ?sp, ?returns, ?frame⟩, ?pc⟩
  case calls => rw [callChain_cons (exec_call_of_room a hroom), h.calls]
  case sp =>
    rw [h.sp, afterCall_sp, List.length_cons]
    omega
  case returns => exact returnChain_succ_of_last h.returns (exec_ret_of_pos hpos)
  case frame =>
    intro p hp
    by_cases hpsp : p = .sp
    · subst hpsp
      exact Fin.ext (by rw [afterRet_sp, hsp, Nat.add_sub_cancel])
    · have hwide : ChangesOnly (fun p => p = .sp ∨ slotsFrom s.sp.val p) s (afterRet u hpos) :=
        changesOnly_trans (changesOnly_trans (changesOnly_mono (afterCall_changesOnly a s hroom) (by simp [slotsFrom, among]))
          (changesOnly_mono hframe fun p hq => .inr (slotsFrom_mono (Nat.le_succ _) hq)))
          (changesOnly_mono (afterRet_changesOnly u hpos) (by simp [slotsFrom, among]))
      exact hwide p (not_or.2 ⟨hpsp, hp⟩)
  case pc =>
    rw [hpc]
    exact advance_pc_toNat s

/-- EVERY CHAIN OF CALLS THAT FITS COMES BACK (R154). -/
theorem callChain_returns (as : List Addr) : ∀ s : State, s.sp.val + as.length ≤ 16 → ∃ t u, CallsReturn as s t u := by
  induction as with
  | nil => exact fun s _ => ⟨s, s, callsReturn_nil s⟩
  | cons a rest ih =>
    intro s hfits
    rw [List.length_cons] at hfits
    have hroom : s.sp.val < 16 := by omega
    obtain ⟨t, u, h⟩ := ih (afterCall a s hroom) (by rw [afterCall_sp]; omega)
    obtain ⟨v, hv, -⟩ := callsReturn_cons hroom h
    exact ⟨t, v, hv⟩

end Sys2Proof.Machine

namespace Sys2Proof.Proofs

open Sys2Proof.Machine

/-- Settles O26: below a full stack CALL pushes at the old SP, and on a full one it raises. -/
theorem callPushesOrOverflows : Obligations.CallPushesOrOverflows := by
  intro s nnn
  refine ⟨fun j hj => ?pushes, fun hfull => ?overflows⟩
  case pushes =>
    have hroom : s.sp.val < 16 := by omega
    obtain rfl : ⟨s.sp.val, hroom⟩ = j := Fin.ext hj
    refine ⟨decode_enabled_encode (.call nnn), _, exec_call_of_room nnn hroom, afterCall_changesOnly nnn s hroom, ?_,
      afterCall_sp nnn s hroom, ?_, rfl⟩
    · rw [afterCall_slot, if_pos rfl, advance_pc_toNat]
    · rw [afterCall_pc, zextAddr_toNat]
  case overflows => exact ⟨_, exec_call_of_full nnn hfull, raise_faultedFrom s _⟩

/-- Settles O27: above an empty stack RET pops the slot below SP, and on an empty one it raises. -/
theorem retPopsOrUnderflows : Obligations.RetPopsOrUnderflows := by
  intro s
  refine ⟨fun j hj => ?pops, fun hempty => ?underflows⟩
  case pops =>
    have hpos : 0 < s.sp.val := by omega
    have hslot : j = ⟨s.sp.val - 1, by omega⟩ := Fin.ext (by simp [hj])
    refine ⟨decode_enabled_encode .ret, _, exec_ret_of_pos hpos, afterRet_changesOnly s hpos, ?_, ?_, rfl⟩
    · rw [afterRet_sp, hj, Nat.add_sub_cancel]
    · rw [hslot, afterRet_pc]
  case underflows => exact ⟨_, exec_ret_of_empty hempty, raise_faultedFrom s _⟩

/-- Settles O28: the first CALL wraps a chain that comes back, and a filled stack takes no further CALL. -/
theorem nestedCallsReturn : Obligations.NestedCallsReturn := by
  intro s a rest hfits
  have hroom : s.sp.val < 16 := by
    rw [List.length_cons] at hfits
    omega
  obtain ⟨t, u, h⟩ := callChain_returns rest (afterCall a s hroom) (by
    rw [List.length_cons] at hfits
    rw [afterCall_sp]
    omega)
  obtain ⟨v, hv, hpc⟩ := callsReturn_cons hroom h
  exact ⟨t, hv.calls, hv.sp, ⟨v, hv.returns, hpc, hv.frame⟩,
    fun hfull b => ⟨_, exec_call_of_full b hfull, raise_faultedFrom t _⟩⟩

end Sys2Proof.Proofs
end

