-- ==== Sys2Proof/Proofs/Display.lean ====
section
/-! CLS and DRW (43_display R160 to R166): what a draw leaves in the cells and in VF, and two equal draws in a row. -/

namespace Sys2Proof.Machine

/-! ### one draw -/

theorem spriteVisible_of_collides {s : State} {vx vy n : Nat} (h : spriteCollides s vx vy n) : spriteVisible s vx vy n :=
  have ⟨px, py, hbit, _⟩ := h
  ⟨px, py, hbit⟩

/-- The collision flag of a draw on the core's own display, over the cells of the display (R162). -/
theorem drawSprite_collides_iff (s : State) (vx vy n : Nat) :
    (drawSprite s vx vy n (s.disp, false)).2 = true ↔ spriteCollides s vx vy n := by
  rw [drawSprite_collision]
  constructor
  · rintro (h | ⟨px, hx, py, hy, hbit, hcell⟩)
    · cases h
    · exact ⟨⟨px, hx⟩, ⟨py, hy⟩, hbit, hcell⟩
  · rintro ⟨px, py, hbit, hcell⟩
    exact .inr ⟨px, px.isLt, py, py.isLt, hbit, hcell⟩

/-- The display after a draw of the sprite at `I` from `(Vx, Vy)`, and whether it collided. -/
def drawnSprite (x y : RegIdx) (n : BitVec 4) (s : State) : Display × Bool :=
  drawSprite s (s.reg x).toNat (s.reg y).toNat n.toNat (s.disp, false)

/-- The state after a draw (R161). -/
def afterDrw (x y : RegIdx) (n : BitVec 4) (s : State) : State :=
  ((s.advance.setDisp (drawnSprite x y n s).1).setReg vf (flagByte (drawnSprite x y n s).2)).setRender true

theorem exec_drw (x y : RegIdx) (n : BitVec 4) (s : State) : exec (.drw x y n) s = .next (afterDrw x y n s) := rfl

theorem eq_afterDrw {x y : RegIdx} {n : BitVec 4} {s t : State} (h : exec (.drw x y n) s = .next t) : t = afterDrw x y n s := by
  cases h
  rfl

/-- Every cell inside the display is XORed with the sprite's bit there (R161). -/
theorem afterDrw_cell (x y : RegIdx) (n : BitVec 4) (s : State) (px : Fin 64) (py : Fin 32) :
    (afterDrw x y n s).disp.cell px py =
      (s.disp.cell px py ^^ spriteBit s (s.reg x).toNat (s.reg y).toNat n.toNat px py) :=
  drawSprite_cell s _ _ _ px py ⟨px.isLt, py.isLt⟩ _

theorem afterDrw_vf (x y : RegIdx) (n : BitVec 4) (s : State) :
    (afterDrw x y n s).reg vf = flagByte (drawnSprite x y n s).2 := by
  simp [afterDrw]

theorem flagByte_eq_one (b : Bool) : flagByte b = 1 ↔ b = true := by cases b <;> decide

theorem flagByte_eq_zero (b : Bool) : flagByte b = 0 ↔ ¬ b = true := by cases b <;> decide

/-- VF is 1 exactly when the draw collided (R162) … -/
theorem afterDrw_vf_eq_one (x y : RegIdx) (n : BitVec 4) (s : State) :
    (afterDrw x y n s).reg vf = 1 ↔ spriteCollides s (s.reg x).toNat (s.reg y).toNat n.toNat := by
  rw [afterDrw_vf, flagByte_eq_one, drawnSprite, drawSprite_collides_iff]

/-- … and 0 otherwise. -/
theorem afterDrw_vf_eq_zero (x y : RegIdx) (n : BitVec 4) (s : State) :
    (afterDrw x y n s).reg vf = 0 ↔ ¬ spriteCollides s (s.reg x).toNat (s.reg y).toNat n.toNat := by
  rw [afterDrw_vf, flagByte_eq_zero, drawnSprite, drawSprite_collides_iff]

/-- The frame of a draw: of the cells only those under a set sprite bit. -/
theorem afterDrw_changesOnly (x y : RegIdx) (n : BitVec 4) (s : State) :
    ChangesOnly (fun p => among [.reg vf, .pc, .render] p ∨ spriteCells s (s.reg x).toNat (s.reg y).toNat n.toNat p) s
      (afterDrw x y n s) := by
  intro p hp
  obtain ⟨hnamed, hcells⟩ := not_or.1 hp
  cases p
  case cell px py =>
    refine (afterDrw_cell x y n s px py).trans ?_
    rw [Bool.eq_false_iff.2 fun hbit => hcells ⟨px, py, hbit, rfl⟩, Bool.xor_false]
  case pc | render => exact absurd (by simp [among]) hnamed
  case reg r =>
    have hr : ¬ vf = r := fun h => hnamed (by simp [among, h])
    exact (State.reg_setReg _ _ _ _).trans (if_neg hr)
  all_goals rfl

/-! ### the same draw again -/

/-- A draw keeps the sprite: it writes neither `I` nor memory. -/
theorem spriteBit_afterDrw (x y : RegIdx) (n : BitVec 4) (s : State) (vx vy m px py : Nat) :
    spriteBit (afterDrw x y n s) vx vy m px py = spriteBit s vx vy m px py := rfl

/-- The second of two equal draws at the same place puts every cell back (R166). -/
theorem afterDrw_twice_cell {x y : RegIdx} {n : BitVec 4} {s : State} (hx : (afterDrw x y n s).reg x = s.reg x)
    (hy : (afterDrw x y n s).reg y = s.reg y) (px : Fin 64) (py : Fin 32) :
    (afterDrw x y n (afterDrw x y n s)).disp.cell px py = s.disp.cell px py := by
  rw [afterDrw_cell, hx, hy, spriteBit_afterDrw, afterDrw_cell, Bool.xor_assoc, Bool.xor_self, Bool.xor_false]

/-- The second of two equal draws at the same place collides exactly where the first set a clear cell (R162). -/
theorem afterDrw_twice_vf {x y : RegIdx} {n : BitVec 4} {s : State} (hx : (afterDrw x y n s).reg x = s.reg x)
    (hy : (afterDrw x y n s).reg y = s.reg y) :
    (afterDrw x y n (afterDrw x y n s)).reg vf = 1 ↔ ∃ (px : Fin 64) (py : Fin 32),
      spriteBit s (s.reg x).toNat (s.reg y).toNat n.toNat px py = true ∧ s.disp.cell px py = false := by
  rw [afterDrw_vf_eq_one, hx, hy]
  refine exists_congr fun px => exists_congr fun py => and_congr_right fun hbit => ?_
  rw [spriteBit_afterDrw] at hbit
  rw [afterDrw_cell, hbit, Bool.xor_true, Bool.not_eq_true']

/-- CLS writes every cell (R160). -/
theorem cls_changesOnly (s : State) : ChangesOnly (fun p => among [.pc, .render] p ∨ ∃ px py, p = .cell px py) s
    ((s.advance.setDisp clearDisplay).setRender true) := by
  intro p hp
  cases p <;> simp_all [Part.Same, among]

end Sys2Proof.Machine

namespace Sys2Proof.Proofs

open Sys2Proof.Machine

/-- Settles O30: the display is replaced by the clear one. -/
theorem clsClearsEveryCell : Obligations.ClsClearsEveryCell :=
  fun s => ⟨decode_enabled_encode .cls, _, rfl, cls_changesOnly s, fun _ _ => clearDisplay_cell _ _,
    advance_pc_toNat s, rfl⟩

/-- Settles O31: each cell is XORed with the sprite's bit, and VF is the collision flag. -/
theorem drwXorsTheSprite : Obligations.DrwXorsTheSprite := by
  intro s x y n
  refine ⟨decode_enabled_encode (.drw x y n), _, exec_drw x y n s, afterDrw_changesOnly x y n s, afterDrw_cell x y n s, ?_,
    advance_pc_toNat s, rfl⟩
  by_cases hcollides : spriteCollides s (s.reg x).toNat (s.reg y).toNat n.toNat
  · exact .inl ⟨(afterDrw_vf_eq_one x y n s).2 hcollides, hcollides⟩
  · exact .inr ⟨(afterDrw_vf_eq_zero x y n s).2 hcollides, hcollides⟩

/-- Settles O32: XOR twice is the identity, and the second draw meets the cells as the first left them. -/
theorem drawingTwiceRestores : Obligations.DrawingTwiceRestores := by
  intro s t x y n hexec hx hy
  obtain rfl := eq_afterDrw hexec
  refine ⟨_, exec_drw x y n _, afterDrw_twice_cell hx hy, afterDrw_twice_vf hx hy, fun hinvisible => ⟨?_, ?_⟩⟩
  · exact (afterDrw_vf_eq_zero x y n s).2 fun h => hinvisible (spriteVisible_of_collides h)
  · refine (afterDrw_vf_eq_zero x y n _).2 fun h => hinvisible ?_
    have hvisible := spriteVisible_of_collides h
    rwa [hx, hy] at hvisible

/-- Settles O57: with no collision every cell under a set bit was clear, so the first draw set it and the second meets it. -/
theorem secondDrawCollidesOnWhatTheFirstSet : Obligations.SecondDrawCollidesOnWhatTheFirstSet := by
  intro s t x y n hexec hx hy hvf hvisible
  obtain rfl := eq_afterDrw hexec
  have hclear : ∀ (px : Fin 64) (py : Fin 32), spriteBit s (s.reg x).toNat (s.reg y).toNat n.toNat px py = true →
      s.disp.cell px py = false := fun px py hbit =>
    Bool.eq_false_iff.2 fun hcell => (afterDrw_vf_eq_zero x y n s).1 hvf ⟨px, py, hbit, hcell⟩
  refine ⟨fun px py hbit => ?_, _, exec_drw x y n _, (afterDrw_twice_vf hx hy).2 ?_⟩
  · rw [afterDrw_cell, hbit, hclear px py hbit]
    rfl
  · obtain ⟨px, py, hbit⟩ := hvisible
    exact ⟨px, py, hbit, hclear px py hbit⟩

/-- The state of the counterexample to R166's flag clause: reset, with every cell of the display set. `I` is at the font. -/
def litReset : State := State.reset.setDisp (Vector.replicate 32 (Vector.replicate 64 true))

theorem litReset_cell (px : Fin 64) (py : Fin 32) : litReset.disp.cell px py = true := by
  simp [litReset, Display.cell]

/-- Refutes O33: on a display with every cell set the first draw clears what it meets, so the second one meets no set cell
(R161, R162; log entry 22). -/
theorem not_secondDrawCollidesWhateverWasThere : ¬ Obligations.SecondDrawCollidesWhateverWasThere := by
  intro h
  have hx : (afterDrw 0 1 1 litReset).reg 0 = litReset.reg 0 := rfl
  have hy : (afterDrw 0 1 1 litReset).reg 1 = litReset.reg 1 := rfl
  have hvisible : spriteVisible litReset (litReset.reg 0).toNat (litReset.reg 1).toNat (1#4).toNat := ⟨0, 0, by decide⟩
  obtain ⟨u, hexec, hvf⟩ := h litReset _ 0 1 1 (exec_drw 0 1 1 _) hx hy hvisible
  obtain rfl := eq_afterDrw hexec
  obtain ⟨px, py, -, hclear⟩ := (afterDrw_twice_vf hx hy).1 hvf
  rw [litReset_cell] at hclear
  cases hclear

end Sys2Proof.Proofs
end

