-- ==== Sys2Proof/Proofs/Memory.lean ====
section
/-! Memory (20_memory, 46_index_memory R193 to R195, 70_reset_and_hazards R220 to R223): stores and loads of registers, the load
of a ROM, a placed word, and the canonical form. -/

namespace Sys2Proof.Machine

/-! ### stores -/

/-- A store changes only the bytes from `a` on, each address masked (R51). -/
theorem storeBytes_changesOnly (s : State) (a : Nat) (bs : List Byte) (h : CanonicalMemory s) (hlen : bs.length ≤ 4096) :
    ChangesOnly (bytesFrom a bs.length) s (s.storeBytes a bs) := by
  intro p hp
  cases p
  case byte b =>
    refine (State.storeBytes_memRead s a bs h hlen).2 b.val fun k hk hmask => hp ⟨k, hk, b, ?_, rfl⟩
    rwa [mask12_of_lt b.isLt] at hmask
  all_goals rfl

/-- Byte `k` of the stored bytes reads back at `a + k` (R59). -/
theorem storeBytes_memRead_same (s : State) (a : Nat) (bs : List Byte) (h : CanonicalMemory s) (hlen : bs.length ≤ 4096)
    (k : Nat) (hk : k < bs.length) : (s.storeBytes a bs).memRead (a + k) = bs[k] :=
  (State.storeBytes_memRead s a bs h hlen).1 k hk

theorem advance_changesOnly (s : State) : ChangesOnly (among [.pc, .render]) s s.advance := by
  intro p hp
  cases p <;> simp_all [Part.Same, among]

theorem bumpIndex_changesOnly (s : State) (x : RegIdx) : ChangesOnly (among [.index]) s (s.bumpIndex x) := by
  intro p hp
  cases p <;> simp_all [Part.Same, among]

/-- `I` after the optional increment, as a number (R194, R195). -/
theorem bumpIndex_index_toNat (s : State) (x : RegIdx) : (s.bumpIndex x).index.toNat =
    if s.cfg.loadStoreIncrementsI = true then (s.index.toNat + x.val + 1) % 65536 else s.index.toNat := by
  rw [State.bumpIndex_index]
  split_ifs
  · rw [BitVec.toNat_add, BitVec.toNat_ofNat]
    omega
  · rfl

/-! ### loads of registers -/

theorem loadRegs_changesOnly (s : State) (rs : List RegIdx) :
    ChangesOnly (fun p => ∃ r ∈ rs, p = .reg r) s (s.loadRegs rs) := by
  intro p hp
  obtain ⟨v, hv⟩ := State.loadRegs_eq rs s
  cases p
  case reg r => exact (State.loadRegs_reg rs r s).trans (if_neg fun hr => hp ⟨r, hr, rfl⟩)
  all_goals
    rw [hv]
    rfl

/-! ### a placed word (log entry 13) -/

theorem placeWord_aligned (s : State) (w : Word) : Aligned (placeWord s w) := by
  intro hpolicy
  have hpc : (placeWord s w).pc = fetchablePc s := rfl
  have hcfg : s.cfg.oddPcPolicy = .fault := hpolicy
  have hlt := s.pc.isLt
  rw [hpc, fetchablePc, if_pos hcfg, BitVec.toNat_ofNat]
  omega

/-- A placed word is the word the next step fetches. -/
theorem placeWord_fetchWord (s : State) (w : Word) (h : CanonicalMemory s) : (placeWord s w).fetchWord = w := by
  have hread := storeBytes_memRead_same ((s.setStatus .running).setPc (fetchablePc s)) (fetchablePc s).toNat
    [highByte w, lowByte w] h (by simp)
  have hhigh : (placeWord s w).memRead (placeWord s w).pc.toNat = highByte w := hread 0 (by simp)
  have hlow : (placeWord s w).memRead ((placeWord s w).pc.toNat + 1) = lowByte w := hread 1 (by simp)
  rw [State.fetchWord, State.wordAt, hhigh, hlow, wordOfBytes_bytes]

/-! ### reset -/

/-- After construction memory reads as the font and 0 (R35, R220, R221). -/
theorem resetWith_memRead (cfg : Config) {a : Nat} (ha : a < 4096) :
    (State.resetWith cfg).memRead a = backgroundByte cfg a := by
  simp [State.memRead, Memory.read, mask12_of_lt ha]

theorem backgroundByte_font (cfg : Config) {a : Nat} (h : a < 80) :
    backgroundByte cfg (cfg.fontBase.toNat + a) = cfg.fontData[a] := by
  simp [backgroundByte, h]

theorem backgroundByte_outside (cfg : Config) {a : Nat} (h : a < cfg.fontBase.toNat ∨ cfg.fontBase.toNat + 80 ≤ a) :
    backgroundByte cfg a = 0 :=
  dif_neg (by omega)

/-! ### the canonical form is canonical (log entry 12) -/

theorem Memory.wfFrom_cons {bg : Nat → Byte} {lo a : Nat} {v : Byte} {m : Memory} :
    Memory.wfFrom bg lo ((a, v) :: m) = true ↔ lo ≤ a ∧ a < 4096 ∧ v ≠ bg a ∧ Memory.wfFrom bg (a + 1) m = true := by
  simp only [Memory.wfFrom, Bool.and_eq_true, decide_eq_true_eq, and_assoc]

theorem Memory.read_cons_same (bg : Nat → Byte) (a : Nat) (v : Byte) (m : Memory) : Memory.read bg ((a, v) :: m) a = v :=
  if_pos rfl

theorem Memory.read_cons_other {bg : Nat → Byte} {a b : Nat} {v : Byte} {m : Memory} (h : b ≠ a) :
    Memory.read bg ((a, v) :: m) b = Memory.read bg m b :=
  if_neg h

/-- A canonical memory may be taken to start at its own first address. -/
theorem Memory.wfFrom_head {bg : Nat → Byte} {lo a : Nat} {v : Byte} {m : Memory}
    (h : Memory.wfFrom bg lo ((a, v) :: m) = true) : Memory.wfFrom bg a ((a, v) :: m) = true :=
  Memory.wfFrom_cons.2 ⟨le_rfl, (Memory.wfFrom_cons.1 h).2⟩

/-- A listed byte is not the background, so it is read from no memory that begins above its address. -/
theorem Memory.le_of_read_eq {bg : Nat → Byte} {lo lo' a : Nat} {v : Byte} {m m' : Memory}
    (h : Memory.wfFrom bg lo ((a, v) :: m) = true) (h' : Memory.wfFrom bg lo' m' = true)
    (hread : Memory.read bg ((a, v) :: m) a = Memory.read bg m' a) : lo' ≤ a := by
  obtain ⟨-, -, hv, -⟩ := Memory.wfFrom_cons.1 h
  by_contra hlt
  rw [Memory.read_cons_same, Memory.read_below h' (by omega)] at hread
  exact hv hread

/-- No memory with a listed byte reads like the empty one. -/
theorem Memory.read_cons_ne_nil {bg : Nat → Byte} {lo a : Nat} {v : Byte} {m : Memory}
    (h : Memory.wfFrom bg lo ((a, v) :: m) = true) : ¬ ∀ b < 4096, Memory.read bg ((a, v) :: m) b = Memory.read bg [] b := by
  intro hread
  obtain ⟨-, hlt, hv, -⟩ := Memory.wfFrom_cons.1 h
  have heq := hread a hlt
  rw [Memory.read_cons_same] at heq
  exact hv heq

/-- Two canonical memories that begin with the same byte and read alike have tails that read alike. -/
theorem Memory.read_tail_eq {bg : Nat → Byte} {a b : Nat} {v : Byte} {m m' : Memory}
    (hm : Memory.wfFrom bg (a + 1) m = true) (hm' : Memory.wfFrom bg (a + 1) m' = true)
    (hread : Memory.read bg ((a, v) :: m) b = Memory.read bg ((a, v) :: m') b) : Memory.read bg m b = Memory.read bg m' b := by
  by_cases hb : b = a
  · rw [Memory.read_below hm (by omega), Memory.read_below hm' (by omega)]
  · rwa [Memory.read_cons_other hb, Memory.read_cons_other hb] at hread

/-- ONE LIST PER CONTENT: canonical memories that read alike are equal. -/
theorem Memory.eq_of_read_eq {bg : Nat → Byte} {m : Memory} : ∀ {m' : Memory} {lo lo' : Nat},
    Memory.wfFrom bg lo m = true → Memory.wfFrom bg lo' m' = true →
    (∀ a < 4096, Memory.read bg m a = Memory.read bg m' a) → m = m' := by
  induction m with
  | nil =>
    intro m' lo lo' _ h' hread
    cases m' with
    | nil => rfl
    | cons c' m' => exact absurd (fun b hb => (hread b hb).symm) (Memory.read_cons_ne_nil h')
  | cons c m ih =>
    intro m' lo lo' h h' hread
    cases m' with
    | nil => exact absurd hread (Memory.read_cons_ne_nil h)
    | cons c' m' =>
      obtain ⟨a, v⟩ := c
      obtain ⟨a', v'⟩ := c'
      obtain ⟨-, hlt, -, hm⟩ := Memory.wfFrom_cons.1 h
      obtain ⟨-, hlt', -, hm'⟩ := Memory.wfFrom_cons.1 h'
      obtain rfl : a = a' := le_antisymm
        (Memory.le_of_read_eq h' (Memory.wfFrom_head h) (hread a' hlt').symm)
        (Memory.le_of_read_eq h (Memory.wfFrom_head h') (hread a hlt))
      obtain rfl : v = v' := by
        have heq := hread a hlt
        rwa [Memory.read_cons_same, Memory.read_cons_same] at heq
      rw [ih hm hm' fun b hb => Memory.read_tail_eq hm hm' (hread b hb)]

/-- Two states with equal fields are equal. -/
theorem State.ext_fields {s t : State} (hv : t.v = s.v) (hindex : t.index = s.index) (hpc : t.pc = s.pc) (hsp : t.sp = s.sp)
    (hstack : t.stack = s.stack) (hdt : t.dt = s.dt) (hst : t.st = s.st) (hdisp : t.disp = s.disp) (hkeys : t.keys = s.keys)
    (hmem : t.mem = s.mem) (hstatus : t.status = s.status) (hcfg : t.cfg = s.cfg) (hrender : t.render = s.render)
    (hdraws : t.draws = s.draws) : t = s := by
  cases s
  cases t
  simp_all

theorem Display.eq_of_cell_eq {d d' : Display} (h : ∀ (px : Fin 64) (py : Fin 32), d.cell px py = d'.cell px py) : d = d' := by
  refine Vector.ext fun py hy => Vector.ext fun px hx => ?_
  simpa [Display.cell, hx, hy] using h ⟨px, hx⟩ ⟨py, hy⟩

/-- Canonical memories over one configuration that agree on every byte are equal. -/
theorem mem_eq_of_memRead_eq {s t : State} (hs : CanonicalMemory s) (ht : CanonicalMemory t) (hcfg : t.cfg = s.cfg)
    (hread : ∀ a : Fin 4096, t.memRead a = s.memRead a) : t.mem = s.mem := by
  rw [CanonicalMemory, hcfg] at ht
  refine Memory.eq_of_read_eq ht hs fun a ha => ?_
  simpa only [State.memRead, mask12_of_lt ha, hcfg] using hread ⟨a, ha⟩

end Sys2Proof.Machine

namespace Sys2Proof.Proofs

open Sys2Proof.Machine

/-- Settles O7: the core is made Running at a PC it may fetch at, and both bytes of the word read back there. -/
theorem placedWordIsRun : Obligations.PlacedWordIsRun := by
  intro s nbits w i hmem hdecode
  refine step_of_fetchDecode_ok rfl ((fetchDecode_ok _ i).2 ⟨placeWord_aligned s _, ?_⟩)
  rw [State.withFetchWord, placeWord_fetchWord s _ hmem]
  exact hdecode

/-- Settles O14: every field is a literal of the reset state, and memory reads as the background. -/
theorem resetValues : Obligations.ResetValues := by
  intro cfg hfits
  have hbase : cfg.fontBase.toNat + 80 ≤ 0x200 := of_decide_eq_true hfits
  refine ⟨fun r => ?_, fun j => ?_, fun k => ?_, clearDisplay_cell, fun a ha => ?_, fun a ha hout => ?_,
    rfl, rfl, rfl, rfl, rfl, rfl, rfl, rfl, rfl⟩
  · simp [State.reg]
  · simp [State.slot]
  · simp [State.key]
  · rw [resetWith_memRead cfg (by omega), backgroundByte_font cfg ha]
  · rw [resetWith_memRead cfg ha, backgroundByte_outside cfg hout]

/-- Settles O15: the load is one test of the length and one store over the reset state, whose memory is canonical. -/
theorem loadPlacesTheRom : Obligations.LoadPlacesTheRom := by
  intro cfg rom
  refine ⟨fun htoolarge => if_neg (by omega), fun hfits => ?_⟩
  have hlen : rom.length ≤ 4096 := by omega
  have hreset : CanonicalMemory (State.resetWith cfg) := State.resetWith_wf cfg
  exact ⟨_, load_ok_iff.2 ⟨hfits, rfl⟩, storeBytes_memRead_same _ 0x200 rom hreset hlen,
    storeBytes_changesOnly _ 0x200 rom hreset hlen⟩

/-- Settles O44: three bytes are stored at `I`, the decimal digits. -/
theorem ldBVxStoresTheDecimalDigits : Obligations.LdBVxStoresTheDecimalDigits := by
  intro s x hmem
  have hlen : (decimalDigits (s.reg x)).length ≤ 4096 := by simp [decimalDigits]
  have hread : ∀ k (hk : k < 3), ((s.advance.storeBytes s.index.toNat (decimalDigits (s.reg x))).memRead
      (s.index.toNat + k)).toNat = ((decimalDigits (s.reg x))[k]'hk).toNat := fun k hk =>
    congrArg BitVec.toNat (storeBytes_memRead_same s.advance _ _ hmem hlen k hk)
  have hlt := (s.reg x).isLt
  refine ⟨decode_enabled_encode (.ldBVx x), _, rfl, ?frame, ?hundreds, ?tens, ?units, advance_pc_toNat s⟩
  case frame =>
    exact changesOnly_trans (changesOnly_mono (advance_changesOnly s) fun _ => .inl)
      (changesOnly_mono (storeBytes_changesOnly s.advance _ _ hmem hlen) fun _ => .inr)
  case hundreds => exact (hread 0 (by decide)).trans (Nat.mod_eq_of_lt (by omega))
  case tens => exact (hread 1 (by decide)).trans (Nat.mod_eq_of_lt (by omega))
  case units => exact (hread 2 (by decide)).trans (Nat.mod_eq_of_lt (by omega))

/-- Settles O45: the registers V0 to Vx are stored in order at `I`. -/
theorem ldMemVxStoresTheRegisters : Obligations.LdMemVxStoresTheRegisters := by
  intro s x hmem
  have hcount : ((regsThrough x).map s.reg).length = x.val + 1 := by rw [List.length_map, regsThrough_length]
  have hlen : ((regsThrough x).map s.reg).length ≤ 4096 := by omega
  refine ⟨decode_enabled_encode (.ldMemVx x), _, rfl, ?frame, fun r hr => ?bytes, ?index, ?pc⟩
  case frame =>
    rw [← hcount]
    exact changesOnly_trans (changesOnly_trans
      (changesOnly_mono (advance_changesOnly s) (by simp +contextual [among]))
      (changesOnly_mono (storeBytes_changesOnly s.advance _ _ hmem hlen) fun _ => .inr))
      (changesOnly_mono (bumpIndex_changesOnly _ x) (by simp +contextual [among]))
  case bytes =>
    have hle : r.val ≤ x.val := hr
    have hk : r.val < ((regsThrough x).map s.reg).length := by omega
    have hr' : (regsThrough x)[r.val]'(by simpa using hk) = r := Fin.ext (regsThrough_get x r.val _)
    rw [State.bumpIndex_memRead, storeBytes_memRead_same s.advance _ _ hmem hlen r.val hk, List.getElem_map, hr']
  case index => exact bumpIndex_index_toNat _ x
  case pc =>
    rw [FallsThrough, State.bumpIndex_pc]
    exact advance_pc_toNat s

/-- Settles O46: the registers V0 to Vx are loaded from the bytes at `I`. -/
theorem ldVxMemLoadsTheRegisters : Obligations.LdVxMemLoadsTheRegisters := by
  intro s x
  obtain ⟨v, hv⟩ := State.loadRegs_eq (regsThrough x) s.advance
  refine ⟨decode_enabled_encode (.ldVxMem x), _, rfl, ?frame, fun r hr => ?registers, ?index, ?pc⟩
  case frame =>
    exact changesOnly_trans (changesOnly_trans
      (changesOnly_mono (advance_changesOnly s) (by simp +contextual [among]))
      (changesOnly_mono (loadRegs_changesOnly s.advance _) fun _ ⟨r, hr, hp⟩ =>
        .inr ⟨r, (mem_regsThrough x r).1 hr, hp⟩))
      (changesOnly_mono (bumpIndex_changesOnly _ x) (by simp +contextual [among]))
  case registers =>
    rw [State.bumpIndex_reg, State.loadRegs_reg, if_pos ((mem_regsThrough x r).2 hr)]
    rfl
  case index =>
    rw [bumpIndex_index_toNat, hv]
    rfl
  case pc =>
    rw [FallsThrough, State.bumpIndex_pc, hv]
    exact advance_pc_toNat s

/-- Settles O49: the background byte is never listed and addresses rise, so the reads give the list. -/
theorem equalReadsEqualMemories : Obligations.EqualReadsEqualMemories :=
  fun _ _ _ h h' hread => Memory.eq_of_read_eq h h' hread

/-- Settles O50: each field is determined by the parts it is made of; memory is, because its form is canonical. -/
theorem partsDetermineTheState : Obligations.PartsDetermineTheState := by
  intro s t hs ht hsame
  have hcfg : t.cfg = s.cfg := hsame .config
  exact State.ext_fields
    (hv := Vector.ext fun r hr => hsame (.reg ⟨r, hr⟩)) (hindex := hsame .index) (hpc := hsame .pc) (hsp := hsame .sp)
    (hstack := Vector.ext fun j hj => hsame (.slot ⟨j, hj⟩)) (hdt := hsame .delay) (hst := hsame .sound)
    (hdisp := Display.eq_of_cell_eq fun px py => hsame (.cell px py)) (hkeys := Vector.ext fun k hk => hsame (.key ⟨k, hk⟩))
    (hmem := mem_eq_of_memRead_eq hs ht hcfg fun a => hsame (.byte a)) (hstatus := hsame .status) (hcfg := hcfg)
    (hrender := hsame .render) (hdraws := hsame .draws)

end Sys2Proof.Proofs
end
